-- ==== Sys2Proof/Word.lean ====
section
/-! DEFINITION. The word types of the block: 32-bit words on the command port and in the registers
(spec 10_state.md R32, 30_encoding.md R70), 8-bit storage and data bytes (00_scope.md R9), 4-bit slot
handles (10_state.md R22). Every number is unsigned (00_scope.md R7). -/

namespace Sys2Proof

/-- A command word, an operand word `IMM0`, a register of the host register space, a residue. -/
abbrev Word := BitVec 32

/-- A storage byte or a byte of the data byte port. -/
abbrev Byte := BitVec 8

/-- A slot handle `b0` … `b15`: a 4-bit slot number (R22, R74). -/
abbrev Handle := BitVec 4

end Sys2Proof
end

