-- ==== Sys2Proof/Syntax.lean ====
section
/-! DEFINITION. The commands of the block as syntax: one constructor for every row of
spec/opcode_table.json (30_encoding.md R72, R80). The assembler form of each is R81's. -/

namespace Sys2Proof

/-- The fill of a burst, the `M` bit of `inject_burst`: High writes 1 bits, Low writes 0 bits (R73). -/
inductive Fill where
  | low
  | high
deriving DecidableEq, Repr

/-- The commands. `d` is the destination slot (field `D`), `s` the source or target slot (field `S`, R74). -/
inductive Instr where
  /-- `from_bytes bD, {bytes}` (R103). The operand word `IMM0 = n` is the length of `data` (R77, R81; log 19). -/
  | fromBytes (d : Handle) (data : List Byte)
  /-- `new_empty bD, cap_bits` (R104). -/
  | newEmpty (d : Handle) (capBits : Word)
  /-- `get_bit bS, index` (R105). -/
  | getBit (s : Handle) (index : Word)
  /-- `set_bit bS, index, v` (R106). -/
  | setBit (s : Handle) (index : Word) (v : Bool)
  /-- `push_bit bS, v` (R107). -/
  | pushBit (s : Handle) (v : Bool)
  /-- `pop_bit bS` (R108). -/
  | popBit (s : Handle)
  /-- `free bS` (R109). -/
  | free (s : Handle)
  /-- `get_len bS` (R110). -/
  | getLen (s : Handle)
  /-- `get_cap bS` (R111). -/
  | getCap (s : Handle)
  /-- `get_residue bS` (R112). -/
  | getResidue (s : Handle)
  /-- `crc.encode bD, bS, generator` (R140). -/
  | crcEncode (d s : Handle) (gen : Word)
  /-- `crc.decode bD, bS, generator` (R141). -/
  | crcDecode (d s : Handle) (gen : Word)
  /-- `inject_burst bS, burst_bits, high|low` (R160). -/
  | injectBurst (s : Handle) (burstBits : Word) (fill : Fill)
deriving DecidableEq, Repr

end Sys2Proof
end

