-- ==== Sys2Proof/WellFormed.lean ====
section
/-! DEFINITION. Which terms of `Instr` are commands of the block. Handles, operand words and mode bits
have their exact widths in the syntax, so the one check left is that a `from_bytes` has no more data
bytes than its operand word can count (30_encoding.md R76: `IMM0` is a 32-bit unsigned number). -/

namespace Sys2Proof

/-- The command has an encoding (R70, R71, R76, R77). -/
def Instr.wellFormed : Instr → Bool
  | .fromBytes _ data => decide (data.length < 2 ^ 32)
  | .newEmpty _ _ => true
  | .getBit _ _ => true
  | .setBit _ _ _ => true
  | .pushBit _ _ => true
  | .popBit _ => true
  | .free _ => true
  | .getLen _ => true
  | .getCap _ => true
  | .getResidue _ => true
  | .crcEncode _ _ _ => true
  | .crcDecode _ _ _ => true
  | .injectBurst _ _ _ => true

end Sys2Proof
end

