-- ==== Sys2Proof/Decode.lean ====
section
/-! DEFINITION. Decoding and encoding of commands (spec 30_encoding.md). `decode` is total on any contents
of the command port and the data byte port and rejects an illegal command word by the condition of R75
that it meets; `encode` and `encodeData` write a command back, from R71, R72 and R80. -/

namespace Sys2Proof

/-! ## The fields of a command word (R71) -/

/-- `OP`, bits 31:28. -/
def fieldOp (w : Word) : BitVec 4 := w.extractLsb' 28 4
/-- `M`, bit 27. -/
def fieldM (w : Word) : Bool := w.getLsbD 27
/-- `RSV1`, bits 26:24, reserved. -/
def fieldRsv1 (w : Word) : BitVec 3 := w.extractLsb' 24 3
/-- `D`, bits 23:20. -/
def fieldD (w : Word) : Handle := w.extractLsb' 20 4
/-- `S`, bits 19:16. -/
def fieldS (w : Word) : Handle := w.extractLsb' 16 4
/-- `RSV0`, bits 15:0, reserved. -/
def fieldRsv0 (w : Word) : BitVec 16 := w.extractLsb' 0 16

/-! ## Illegal command words (R75) -/

/-- Why a command word is illegal: the conditions of R75, in its order. -/
inductive Illegal where
  /-- `OP` is 0x0, 0xD, 0xE or 0xF. -/
  | reservedOpcode
  /-- `RSV1` is not 0. -/
  | reservedField1
  /-- `RSV0` is not 0. -/
  | reservedField0
  /-- `M` = 1 for an opcode that does not use `M`. -/
  | modeUnused
  /-- `D` is not 0 for an opcode that does not use `D`. -/
  | destinationUnused
  /-- `S` is not 0 for an opcode that does not use `S`. -/
  | sourceUnused
deriving DecidableEq, Repr

/-- The opcode does not use `M` (R73, R75 item 4). -/
def unlessMode (w : Word) (r : Except Illegal Instr) : Except Illegal Instr :=
  if fieldM w then .error .modeUnused else r

/-- The opcode does not use `D` (R74, R75 item 5). -/
def unlessDestination (w : Word) (r : Except Illegal Instr) : Except Illegal Instr :=
  if fieldD w ≠ 0#4 then .error .destinationUnused else r

/-- The opcode does not use `S` (R74, R75 item 6). -/
def unlessSource (w : Word) (r : Except Illegal Instr) : Except Illegal Instr :=
  if fieldS w ≠ 0#4 then .error .sourceUnused else r

/-- The fill that `M` selects in `inject_burst`: 1 is High, 0 is Low (R73). -/
def fillOfM (m : Bool) : Fill := if m then .high else .low

/-- The case of R79 on `OP`, for a word whose reserved fields are 0: the command named by the word `w`,
with its operand word and data bytes where the opcode takes them. -/
def decodeOpcode (w imm : Word) (data : List Byte) : Except Illegal Instr :=
  match (fieldOp w).toNat with
  | 0x1 => unlessMode w (unlessSource w (.ok (.fromBytes (fieldD w) data)))
  | 0x2 => unlessMode w (unlessSource w (.ok (.newEmpty (fieldD w) imm)))
  | 0x3 => unlessMode w (unlessDestination w (.ok (.getBit (fieldS w) imm)))
  | 0x4 => unlessDestination w (.ok (.setBit (fieldS w) imm (fieldM w)))
  | 0x5 => unlessDestination w (.ok (.pushBit (fieldS w) (fieldM w)))
  | 0x6 => unlessMode w (unlessDestination w (.ok (.popBit (fieldS w))))
  | 0x7 => unlessMode w (unlessDestination w (.ok (.free (fieldS w))))
  | 0x8 => unlessMode w (unlessDestination w (.ok (.getLen (fieldS w))))
  | 0x9 => unlessMode w (unlessDestination w (.ok (.getCap (fieldS w))))
  | 0xA => unlessMode w (unlessDestination w (.ok (.getResidue (fieldS w))))
  | 0xB => .ok (if fieldM w then .crcDecode (fieldD w) (fieldS w) imm else .crcEncode (fieldD w) (fieldS w) imm)
  | 0xC => unlessDestination w (.ok (.injectBurst (fieldS w) imm (fillOfM (fieldM w))))
  | _ => .error .reservedOpcode

/-- `Decode` of R79, total on 32-bit words, with the operands of the command beside its word. -/
def decodeWord (w imm : Word) (data : List Byte) : Except Illegal Instr :=
  if fieldRsv1 w ≠ 0#3 then .error .reservedField1
  else if fieldRsv0 w ≠ 0#16 then .error .reservedField0
  else decodeOpcode w imm data

/-! ## Command lengths (R78) -/

/-- How many operand words follow the command word; the length of an illegal opcode is unknown, and what
follows it is ignored, so it takes none (R78, 60_exceptions.md R184). -/
def operandWordCount (w : Word) : Nat :=
  match (fieldOp w).toNat with
  | 0x1 => 1
  | 0x2 => 1
  | 0x3 => 1
  | 0x4 => 1
  | 0xB => 1
  | 0xC => 1
  | _ => 0

/-- How many data bytes follow the operand word: `IMM0` for `from_bytes`, none for every other command
(R77, R78). -/
def dataByteCount (w imm : Word) : Nat :=
  if (fieldOp w).toNat = 0x1 then imm.toNat else 0

/-- What follows a command word, once it has all arrived: its operand word (0 where it takes none), its
data bytes, and what stands behind them on the two ports. -/
structure Arrived where
  imm : Word
  data : List Byte
  words : List Word
  bytes : List Byte
deriving DecidableEq, Repr

/-- The operand word and data bytes of the command word `w`, if they have all arrived (R70). -/
def arrived (w : Word) (words : List Word) (bytes : List Byte) : Option Arrived :=
  if operandWordCount w = 0 then some ⟨0, [], words, bytes⟩
  else match words with
    | [] => none
    | imm :: rest =>
      if dataByteCount w imm ≤ bytes.length then
        some ⟨imm, bytes.take (dataByteCount w imm), rest, bytes.drop (dataByteCount w imm)⟩
      else none

/-- What stands at the front of the two ports. -/
inductive Decoded where
  /-- No whole command: the block waits for the host (R70, 70_reset_and_hazards.md R211). -/
  | waiting
  /-- An illegal command word (R75). -/
  | illegal (w : Word) (why : Illegal)
  /-- A whole command, and what stands behind it on the command port and on the data byte port. -/
  | command (i : Instr) (words : List Word) (bytes : List Byte)
deriving DecidableEq, Repr

/-- The decoder: total on any words and bytes. An illegal word is illegal as soon as it stands at the front,
whatever follows (R75, R78); a legal one is a command once its last word and byte have arrived (R70). -/
def decode (words : List Word) (bytes : List Byte) : Decoded :=
  match words with
  | [] => .waiting
  | w :: rest =>
    match arrived w rest bytes with
    | none =>
      match decodeWord w 0 [] with
      | .error why => .illegal w why
      | .ok _ => .waiting
    | some a =>
      match decodeWord w a.imm a.data with
      | .error why => .illegal w why
      | .ok i => .command i a.words a.bytes

/-! ## The encoder (R71, R72, R80) -/

/-- A command word from its fields, the reserved ones 0 (R71). -/
def packWord (op : BitVec 4) (m : Bool) (d s : Handle) : Word :=
  op ++ BitVec.ofBool m ++ 0#3 ++ d ++ s ++ 0#16

/-- The `M` bit of a fill (R73). -/
def mOfFill : Fill → Bool
  | .low => false
  | .high => true

/-- The command word of a command (R80). It is also what `FAULT_CMD` records when the command faults. -/
def cmdWord : Instr → Word
  | .fromBytes d _ => packWord 0x1 false d 0
  | .newEmpty d _ => packWord 0x2 false d 0
  | .getBit s _ => packWord 0x3 false 0 s
  | .setBit s _ v => packWord 0x4 v 0 s
  | .pushBit s v => packWord 0x5 v 0 s
  | .popBit s => packWord 0x6 false 0 s
  | .free s => packWord 0x7 false 0 s
  | .getLen s => packWord 0x8 false 0 s
  | .getCap s => packWord 0x9 false 0 s
  | .getResidue s => packWord 0xA false 0 s
  | .crcEncode d s _ => packWord 0xB false d s
  | .crcDecode d s _ => packWord 0xB true d s
  | .injectBurst s _ fill => packWord 0xC (mOfFill fill) 0 s

/-- The operand word of a command, where it takes one (R76). -/
def operandWords : Instr → List Word
  | .fromBytes _ data => [BitVec.ofNat 32 data.length]
  | .newEmpty _ capBits => [capBits]
  | .getBit _ index => [index]
  | .setBit _ index _ => [index]
  | .pushBit _ _ => []
  | .popBit _ => []
  | .free _ => []
  | .getLen _ => []
  | .getCap _ => []
  | .getResidue _ => []
  | .crcEncode _ _ gen => [gen]
  | .crcDecode _ _ gen => [gen]
  | .injectBurst _ burstBits _ => [burstBits]

/-- The words of a command on the command port, in the order the host writes them (R70). -/
def encode (i : Instr) : List Word := cmdWord i :: operandWords i

/-- The bytes of a command on the data byte port: only `from_bytes` has any (R77). -/
def encodeData : Instr → List Byte
  | .fromBytes _ data => data
  | _ => []

/-! ## The opcode table's match and mask (R79, R80) -/

/-- A row of the table: a word `w` is a word of the row when `w & mask = match`. -/
structure OpcodeRow where
  matchBits : Word
  mask : Word
deriving DecidableEq, Repr

/-- The word is a word of the row (R79). -/
def OpcodeRow.matches (r : OpcodeRow) (w : Word) : Bool := w &&& r.mask == r.matchBits

/-- The row of a command (R80). -/
def opcodeRow : Instr → OpcodeRow
  | .fromBytes _ _ => ⟨0x10000000, 0xFF0FFFFF⟩
  | .newEmpty _ _ => ⟨0x20000000, 0xFF0FFFFF⟩
  | .getBit _ _ => ⟨0x30000000, 0xFFF0FFFF⟩
  | .setBit _ _ _ => ⟨0x40000000, 0xF7F0FFFF⟩
  | .pushBit _ _ => ⟨0x50000000, 0xF7F0FFFF⟩
  | .popBit _ => ⟨0x60000000, 0xFFF0FFFF⟩
  | .free _ => ⟨0x70000000, 0xFFF0FFFF⟩
  | .getLen _ => ⟨0x80000000, 0xFFF0FFFF⟩
  | .getCap _ => ⟨0x90000000, 0xFFF0FFFF⟩
  | .getResidue _ => ⟨0xA0000000, 0xFFF0FFFF⟩
  | .crcEncode _ _ _ => ⟨0xB0000000, 0xFF00FFFF⟩
  | .crcDecode _ _ _ => ⟨0xB8000000, 0xFF00FFFF⟩
  | .injectBurst _ _ _ => ⟨0xC0000000, 0xF7F0FFFF⟩

/-- The table (R80), in its order. -/
def opcodeTable : List OpcodeRow :=
  [⟨0x10000000, 0xFF0FFFFF⟩, ⟨0x20000000, 0xFF0FFFFF⟩, ⟨0x30000000, 0xFFF0FFFF⟩, ⟨0x40000000, 0xF7F0FFFF⟩,
   ⟨0x50000000, 0xF7F0FFFF⟩, ⟨0x60000000, 0xFFF0FFFF⟩, ⟨0x70000000, 0xFFF0FFFF⟩, ⟨0x80000000, 0xFFF0FFFF⟩,
   ⟨0x90000000, 0xFFF0FFFF⟩, ⟨0xA0000000, 0xFFF0FFFF⟩, ⟨0xB0000000, 0xFF00FFFF⟩, ⟨0xB8000000, 0xFF00FFFF⟩,
   ⟨0xC0000000, 0xF7F0FFFF⟩]

/-! ## The table's numbering of an instruction's bits -/

/-- An instruction given as one number, bit 0 the least significant bit of the command word, laid out on
the two ports: the command word, the operand word from bit 32 on where the opcode takes one, data bytes
from bit 64 on where it takes them. Bits at or above `nbits` are 0. -/
def layOut (nbits w : Nat) : List Word × List Byte :=
  let bits := w % 2 ^ nbits
  let word := BitVec.ofNat 32 bits
  let imm := BitVec.ofNat 32 (bits >>> 32)
  if operandWordCount word = 0 then ([word], [])
  else ([word, imm], (List.range (dataByteCount word imm)).map fun k => BitVec.ofNat 8 (bits >>> (64 + 8 * k)))

/-- The instruction the decoder reads from one table word. -/
def decodeTableWord (nbits w : Nat) : Option Instr :=
  match decode (layOut nbits w).1 (layOut nbits w).2 with
  | .command i _ _ => some i
  | .illegal _ _ => none
  | .waiting => none

end Sys2Proof
end

