-- ==== Sys2Proof/Config.lean ====
section
/-! DEFINITION. The parameters of an instance of the block (spec 00_scope.md R6), and the free values. R6's
last parameter, the injector's offset source, is the free value `Config.drawOffset`. -/

namespace Sys2Proof

/-- The two values of `BIT_ORDER` (R6, 20_memory.md R51). -/
inductive BitOrder where
  /-- Bit index i is bit 7 - (i mod 8) of byte floor(i/8). -/
  | msbFirst
  /-- Bit index i is bit i mod 8 of byte floor(i/8): named by R51 for an agnostic model. -/
  | lsbFirst
deriving DecidableEq, Repr

/-- The parameters of one instance (R6, 41_crc_engine.md R146); a field with a value here has that value in
R6. Configuration, not state (10_state.md R21): no command and no reset changes them
(70_reset_and_hazards.md R210). -/
structure Config where
  /-- `GEN_WIDTH`, the width of the generator operand (R6). -/
  genWidth : Nat := 32
  /-- `MAX_DEGREE`, the largest generator degree (R6). -/
  maxDegree : Nat := 31
  /-- `NSLOTS`, the number of buffer slots, 1 to 16 (R6, D2). -/
  nslots : Nat := 16
  /-- `MAX_SLOT_BYTES`, the largest storage of one slot in bytes, OPEN, 1 to 2^28 (R6, D14). -/
  maxSlotBytes : Nat
  /-- `BIT_ORDER`, which bit of a storage byte holds the lower buffer index (R6, D3). -/
  bitOrder : BitOrder := .msbFirst
  /-- `GROW_NUM`: the numerator of the fill fraction that triggers growth (R6, D13). -/
  growNum : Nat := 3
  /-- `GROW_DEN`: its denominator (R6, D13). -/
  growDen : Nat := 4
  /-- `FROM_BYTES_FACTOR`, the storage headroom factor at `from_bytes` (R6, D12). -/
  fromBytesFactor : Nat := 2
  /-- `HOST_BIG_ENDIAN`, the normalizer's host byte order, no observable effect (R6, 41_crc_engine.md R137). -/
  hostBigEndian : Bool
  /-- Whether a CRC command emits its trace events (41_crc_engine.md R146). -/
  traceEvents : Bool
deriving DecidableEq, Repr

/-- The parameters whose value R6 fixes have it (log 15). -/
abbrev Config.fixed (c : Config) : Prop :=
  c.genWidth = 32 ∧ c.maxDegree = 31 ∧ c.bitOrder = .msbFirst ∧ c.growNum = 3 ∧ c.growDen = 4 ∧
    c.fromBytesFactor = 2

/-- The legal parameters: R6's value where it fixes one, its range where an instance chooses. -/
abbrev Config.wf (c : Config) : Prop :=
  c.fixed ∧ 1 ≤ c.nslots ∧ c.nslots ≤ 16 ∧ 1 ≤ c.maxSlotBytes ∧ c.maxSlotBytes ≤ 2 ^ 28

/-- The configuration of spec 95_test_vectors.md's conventions, at which `State.reset` stands, the other
parameters as R6 gives them. DESIGN CHOICE (log 1), unsafe for a claim about `State.reset` alone:
MAX_SLOT_BYTES is OPEN. -/
def Config.standard : Config := { maxSlotBytes := 2 ^ 28, hostBigEndian := false, traceEvents := false }

/-- FREE VALUE. The bit the environment draws from {0, 1} when `get_bit` reads at `BL ≤ i < CAP`, at the
given number of draws taken before (40_bitbuffer.md R105, D40; log 6). Nothing constrains it. -/
opaque Config.drawBit : Nat → Bool

/-- FREE VALUE. The number behind the environment's draw of an injection offset, at the given number of
draws taken before; the offset is this number reduced into the legal set {0 … X}
(42_burst_injector.md R162, D19; log 6). Nothing constrains it. -/
opaque Config.drawOffset : Nat → Nat

end Sys2Proof
end

