-- ==== Sys2Proof/Machine/State.lean ====
section
/-! DEFINITION. The state of the block as plain data (spec 10_state.md), the fault causes of
60_exceptions.md R181, the reasons a step can stop, and the state after reset (R40). -/

namespace Sys2Proof.Machine

/-- The storage bytes of one slot (R9 `.store[k]`, 20_memory.md R50): byte indices strictly rising, and no
entry equal to `Memory.unlisted`, which every index without an entry reads as. Canonical: equal
storage is an equal list (`Memory.wf`). -/
abbrev Memory := List Host.Cell

/-- What a storage byte reads as that nothing has written: 0x00. For `new_empty` this is the spec's
"zeroed storage" (40_bitbuffer.md R104). For the bytes R102, R103 and R139 leave unspecified it is a
DESIGN CHOICE (log 7), unsafe for a claim about storage bits at index ≥ BL; they are never observable (R28). -/
def Memory.unlisted : Byte := 0

/-- Every entry of the list has an index ≥ `lo`, indices rise strictly, and no entry is the unlisted byte. -/
def Memory.wfFrom (lo : Nat) : Memory → Bool
  | [] => true
  | (k, v) :: m => decide (lo ≤ k) && decide (v ≠ Memory.unlisted) && Memory.wfFrom (k + 1) m

/-- The canonical form. -/
def Memory.wf (m : Memory) : Bool := Memory.wfFrom 0 m

/-- One BitBuffer, the contents of an `ALLOC` slot (R9, R22 to R26). -/
structure Buffer where
  /-- `SB`: the storage length in bytes (R23). -/
  sb : Nat
  /-- The storage bytes, indices 0 … SB-1. -/
  store : Memory
  /-- `BL`: the number of valid bits, a 32-bit unsigned number (R24; a Nat here, log 8). -/
  bl : Nat
  /-- `RES`: the residue, a 32-bit register (R26). -/
  res : Word
deriving DecidableEq, Repr

/-- `CAP`: the capacity in bits, always 8 × SB (R23). -/
def Buffer.cap (b : Buffer) : Nat := 8 * b.sb

/-- The fault causes that a command can raise (60_exceptions.md R181); codes are `causeCode`'s. -/
inductive Cause where
  /-- A command word that 30_encoding.md R75 calls illegal. -/
  | illegalCmd
  /-- `S` ≥ NSLOTS or naming a FREE slot, or `D` ≥ NSLOTS. -/
  | badHandle
  /-- `D` names an ALLOC slot. -/
  | slotInUse
  /-- Generator 0 or 1. -/
  | badGenerator
  /-- Storage of one slot would exceed MAX_SLOT_BYTES. -/
  | allocFail
  /-- `pop_bit` on BL = 0. -/
  | popEmpty
  /-- Bit index ≥ CAP. -/
  | outOfCapacity
deriving DecidableEq, Repr

/-- The reasons for which a step stops with a fault: none. Every fault condition of the spec has an entry
the spec describes (60_exceptions.md R183), and that entry is a next state (log 10). -/
inductive Fault where
deriving DecidableEq, Repr

/-- The reasons for which an instruction is refused. -/
inductive Refusal where
  /-- The instruction of that mnemonic has no meaning yet. Raised by `exec`'s refused arms only; there is
  none, so no step raises it. Safe. -/
  | notModelled (mnemonic : String)
deriving DecidableEq, Repr

/-- The state of the block (R21), with what stands on its two input ports. -/
structure State where
  /-- The instance's parameters: configuration, which no step changes (R21, log 1). -/
  cfg : Config
  /-- `slot[h]`: `none` is FREE, `some b` is ALLOC with the buffer `b` (R22). Places at NSLOTS and above
  stay `none` (log 9). -/
  slots : Vector (Option Buffer) 16
  /-- `RESULT` (R32, R33). -/
  result : Word
  /-- `STATUS`: FAULT bit 0, CAUSE bits 4:1, RNZ bit 5, the rest reserved (R34). -/
  status : Word
  /-- `FAULT_CMD` (R38). -/
  faultCmd : Word
  /-- The words the host has written on the command port and the block has not taken, oldest first
  (20_memory.md R50 item 3, log 2, log 18). -/
  cmdPort : List Word
  /-- The bytes the host has written on the data byte port and the block has not taken, oldest first
  (20_memory.md R50 item 4, log 2, log 18). -/
  dataPort : List Byte
  /-- The model's own field: how many draws have been taken; it names the next free value (log 6). -/
  draws : Nat
deriving DecidableEq, Repr

/-- The block right after reset, for an instance with the parameters `c` (R40, 70_reset_and_hazards.md R210,
R211): every slot FREE, the three registers 0, nothing on the ports, so no command partly received.
`draws` is 0 (DESIGN CHOICE, log 6). -/
def State.resetWith (c : Config) : State :=
  { cfg := c
    slots := Vector.replicate 16 none
    result := 0
    status := 0
    faultCmd := 0
    cmdPort := []
    dataPort := []
    draws := 0 }

/-- The machine right after reset, at the standard configuration (R40; log 1). -/
def State.reset : State := State.resetWith Config.standard

end Sys2Proof.Machine
end

