-- ==== Sys2Proof/Machine/Flags.lean ====
section
/-! DEFINITION. The fields of `STATUS` (10_state.md R34) and what writes them: fault entry (60_exceptions.md
R183) and the completion of a CRC command (R35). -/

namespace Sys2Proof.Machine

/-- The code of a fault cause in `STATUS.CAUSE` (60_exceptions.md R181). -/
def causeCode : Cause → BitVec 4
  | .illegalCmd => 1
  | .badHandle => 2
  | .slotInUse => 3
  | .badGenerator => 4
  | .allocFail => 5
  | .popEmpty => 6
  | .outOfCapacity => 7

/-- `STATUS.FAULT`, bit 0. -/
def statusFault (w : Word) : Bool := w.getLsbD 0

/-- `STATUS.CAUSE`, bits 4:1. -/
def statusCause (w : Word) : BitVec 4 := w.extractLsb' 1 4

/-- `STATUS.RNZ`, bit 5. -/
def statusRnz (w : Word) : Bool := w.getLsbD 5

/-- The reserved bits of `STATUS`, 31:6. -/
def statusReserved (w : Word) : BitVec 26 := w.extractLsb' 6 26

/-- `STATUS` with `RNZ <- v`, every other bit kept (R35). -/
def statusSetRnz (w : Word) (v : Bool) : Word :=
  (w &&& ~~~(1#32 <<< 5)) ||| (if v then 1#32 <<< 5 else 0#32)

/-- `STATUS` with `FAULT <- 1` and `CAUSE <- c`, every other bit kept (R183 item 2). -/
def statusEnterFault (w : Word) (c : Cause) : Word :=
  (w &&& ~~~0x1F#32) ||| 1#32 ||| ((causeCode c).setWidth 32 <<< 1)

end Sys2Proof.Machine
end

