-- ==== Sys2Proof/Machine/Ops.lean ====
section
/-! DEFINITION. The named operations over storage, slots and registers: bytes and bits of a buffer
(20_memory.md R51), allocation and growth (40_bitbuffer.md R101, R102), the register writes, taking a
fault (60_exceptions.md R183), and taking a command off the ports (30_encoding.md R70). -/

namespace Sys2Proof.Machine

/-! ## Storage bytes (R9 `ByteRead`, `ByteWrite`) -/

/-- The storage byte at index `k`. -/
def Memory.read : Memory → Nat → Byte
  | [], _ => Memory.unlisted
  | (j, v) :: m, k => if k = j then v else Memory.read m k

/-- The cell to list for the byte `v` at index `k`, before the cells `m`: none if it is the unlisted byte. -/
def Memory.consCell (k : Nat) (v : Byte) (m : Memory) : Memory :=
  if v = Memory.unlisted then m else (k, v) :: m

/-- Storage with byte `k` set to `v`, every other byte kept; the canonical form is kept. -/
def Memory.write : Memory → Nat → Byte → Memory
  | [], k, v => Memory.consCell k v []
  | (j, x) :: m, k, v =>
    if k < j then Memory.consCell k v ((j, x) :: m)
    else if k = j then Memory.consCell k v m
    else (j, x) :: Memory.write m k v

/-- Fresh storage holding the bytes `data` from index `k` on (R103: `st[k] <- data[k]`). -/
def Memory.ofBytes (k : Nat) : List Byte → Memory
  | [] => []
  | v :: vs => Memory.consCell k v (Memory.ofBytes (k + 1) vs)

/-- Fresh storage holding a verbatim copy of the bytes 0 … n-1 of `m` (41_crc_engine.md R139). -/
def Memory.firstBytes (n : Nat) (m : Memory) : Memory := m.filter fun c => decide (c.1 < n)

/-! ## Bits of a buffer (R51) -/

/-- Which bit of its byte buffer bit `i` is. -/
def bitPlace (o : BitOrder) (i : Nat) : Nat :=
  match o with
  | .msbFirst => 7 - i % 8
  | .lsbFirst => i % 8

/-- A byte with bit `p` set to `v`, every other bit kept. -/
def byteSetBit (x : Byte) (p : Nat) (v : Bool) : Byte :=
  (x &&& ~~~(1#8 <<< p)) ||| ((if v then 1#8 else 0#8) <<< p)

/-- `BitRead` of R51: bit `i` of the storage. -/
def Memory.bitRead (o : BitOrder) (m : Memory) (i : Nat) : Bool := (m.read (i / 8)).getLsbD (bitPlace o i)

/-- `BitWrite` of R51: the storage with bit `i` set to `v`, no other bit changed. -/
def Memory.bitWrite (o : BitOrder) (m : Memory) (i : Nat) (v : Bool) : Memory :=
  m.write (i / 8) (byteSetBit (m.read (i / 8)) (bitPlace o i) v)

/-- The valid bits of a buffer in index order, 0 … BL-1 (10_state.md R25, R28): with CAP and RES all the
host can observe of it. -/
def Buffer.bits (o : BitOrder) (b : Buffer) : List Bool := (List.range b.bl).map (b.store.bitRead o)

/-- The bit as a 32-bit number, zero-extended (R7 `zext_32`). -/
def bitWord (v : Bool) : Word := if v then 1 else 0

/-- `ceil(n / 8)`. -/
def ceilDiv8 (n : Nat) : Nat := (n + 7) / 8

/-! ## Allocation and growth -/

/-- `Alloc(n)` of R101: fresh storage of `n` bytes, no byte of it written. -/
def alloc (c : Config) (n : Nat) : Except Cause Memory :=
  if c.maxSlotBytes < n then .error .allocFail else .ok []

/-- The growth test of R102: `nbl` bits exceed GROW_NUM/GROW_DEN of the capacity of `sb` bytes. -/
def overFill (c : Config) (sb nbl : Nat) : Bool := decide (c.growNum * (8 * sb) < c.growDen * nbl)

/-- The loop of R102: double `sb` while `nbl` bits overfill it. `fuel` bounds the doublings; `nbl` of them
are enough from any `sb` ≥ 1 at R6's fraction, and at sb = 0, which no allocated buffer has (R23), the loop
of R102 has no end and this answers ALLOC_FAIL (log 12). -/
def growBytes (c : Config) (nbl : Nat) : Nat → Nat → Except Cause Nat
  | 0, sb => if overFill c sb nbl then .error .allocFail else .ok sb
  | fuel + 1, sb =>
    if overFill c sb nbl then
      if c.maxSlotBytes < 2 * sb then .error .allocFail else growBytes c nbl fuel (2 * sb)
    else .ok sb

/-- `Grow(h, nbl)` of R102: the stored bytes are kept, the new ones are unwritten, `BL` and `RES` are kept. -/
def grow (c : Config) (b : Buffer) (nbl : Nat) : Except Cause Buffer := do
  let sb ← growBytes c nbl nbl b.sb
  return { b with sb := sb }

/-- Append one bit: grow first, write at the old `BL`, count it (R107; the push of R140 too). -/
def pushBuffer (c : Config) (b : Buffer) (v : Bool) : Except Cause Buffer := do
  let g ← grow c b (b.bl + 1)
  return { g with store := g.store.bitWrite c.bitOrder b.bl v, bl := b.bl + 1 }

/-- Append bits one after another. -/
def pushBits (c : Config) (b : Buffer) : List Bool → Except Cause Buffer
  | [] => .ok b
  | v :: vs => do
    let b' ← pushBuffer c b v
    pushBits c b' vs

/-! ## Slots and registers -/

/-- The contents of slot `h`: `none` is FREE (R22). -/
def State.slot (s : State) (h : Handle) : Option Buffer := s.slots[h.toNat]

/-- The state with slot `h` holding `o`. -/
def State.setSlot (s : State) (h : Handle) (o : Option Buffer) : State :=
  { s with slots := s.slots.set h.toNat o }

/-- `RESULT <- v` (R33). -/
def State.setResult (s : State) (v : Word) : State := { s with result := v }

/-- `STATUS.RNZ <- v` (R35). -/
def State.setRnz (s : State) (v : Bool) : State := { s with status := statusSetRnz s.status v }

/-- One draw has been taken (log 6). -/
def State.countDraw (s : State) : State := { s with draws := s.draws + 1 }

/-- The block is in the halted state: `STATUS.FAULT` = 1 (R34, R184). -/
def State.halted (s : State) : Bool := statusFault s.status

/-- The byte at index `k` of slot `h`'s storage, if the slot is allocated. -/
def State.byteAt (s : State) (h : Handle) (k : Nat) : Option Byte := (s.slot h).map fun b => b.store.read k

/-! ## Taking a fault (60_exceptions.md R183) -/

/-- Fault entry: of the state before the faulting command only `STATUS.FAULT`, `STATUS.CAUSE` and `FAULT_CMD`
change; `w` is the command word. There is no handler and no return (R186). -/
def takeFault (c : Cause) (w : Word) (s : State) : State :=
  { s with status := statusEnterFault s.status c, faultCmd := w }

/-- How a command ends: with the state its effect gives, or with the fault it raises, taken from the state
before it (R183 item 1: every change is discarded). The word recorded is the command's encoding (log 11). -/
def finish (i : Instr) (s : State) : Except Cause State → Host.Outcome State Fault Refusal
  | .ok t => .next t
  | .error c => .next (takeFault c (cmdWord i) s)

/-! ## Taking a command off the ports (30_encoding.md R70, 60_exceptions.md R184) -/

/-- The command word at the front is taken, what follows it stays. -/
def State.takeWord (s : State) : State := { s with cmdPort := s.cmdPort.tail }

/-- The command at the front is taken: if it faulted, its word alone, its operand word and data bytes
staying unconsumed (R184; log 4); else all of it, so that `words` and `bytes` remain (R70). -/
def State.retire (words : List Word) (bytes : List Byte) (t : State) : State :=
  if t.halted then t.takeWord else { t with cmdPort := words, dataPort := bytes }

/-- The next state of an outcome, changed by `f`. -/
def mapNext (f : State → State) : Host.Outcome State Fault Refusal → Host.Outcome State Fault Refusal
  | .next t => .next (f t)
  | .fault r => .fault r
  | .refused r => .refused r

end Sys2Proof.Machine
end

