-- ==== Sys2Proof/Machine/Operands.lean ====
section
/-! DEFINITION. The operand forms: slot handles with their checks (40_bitbuffer.md R100), and the operand
word as a capacity, a generator or a burst length (30_encoding.md R76). -/

namespace Sys2Proof.Machine

/-! ## Handles -/

/-- `CheckS(s)` of R100: the buffer that slot `h` holds, or BAD_HANDLE. -/
def checkS (s : State) (h : Handle) : Except Cause Buffer :=
  if s.cfg.nslots ≤ h.toNat then .error .badHandle
  else match s.slot h with
    | none => .error .badHandle
    | some b => .ok b

/-- `CheckD(d)` of R100: slot `h` exists and is FREE, or BAD_HANDLE, or SLOT_IN_USE. -/
def checkD (s : State) (h : Handle) : Except Cause Unit :=
  if s.cfg.nslots ≤ h.toNat then .error .badHandle
  else match s.slot h with
    | some _ => .error .slotInUse
    | none => .ok ()

/-! ## Storage sizes -/

/-- The storage size of `from_bytes` for `n` data bytes: max(FROM_BYTES_FACTOR × n, 1) (R103, D12). -/
def fromBytesSize (c : Config) (n : Nat) : Nat := max (c.fromBytesFactor * n) 1

/-- The storage size of `new_empty` for `c` bits: max(ceil(c/8), 1) (R104, D12). -/
def newEmptySize (c : Nat) : Nat := max (ceilDiv8 c) 1

/-! ## The generator operand (41_crc_engine.md R130, R131) -/

/-- What the engine derives from the generator (10_state.md R31). -/
structure Generator where
  /-- `DEG`, the degree d, the width of the shift register. -/
  deg : Nat
  /-- `WMASK` = (1 << d) - 1. -/
  wmask : Word
  /-- `XMASK` = gen & WMASK. -/
  xmask : Word
deriving DecidableEq, Repr

/-- The generator operand: the low GEN_WIDTH bits of the operand word, all of them at R6's 32. -/
def generatorOperand (c : Config) (imm : Word) : Word := (imm.setWidth c.genWidth).setWidth 32

/-- The largest k < n with bit k of `w` set. -/
def highestSet (w : Word) : Nat → Option Nat
  | 0 => none
  | k + 1 => if w.getLsbD k then some k else highestSet w k

/-- The generator of degree `d` (R131). -/
def generatorOfDegree (gen : Word) (d : Nat) : Generator :=
  let wmask := (1#32 <<< d) - 1#32
  { deg := d, wmask := wmask, xmask := gen &&& wmask }

/-- The generator `gen` whose highest set bit is the one given: 0 and degree 0 are BAD_GENERATOR (R130). -/
def generatorOfTop (gen : Word) : Option Nat → Except Cause Generator
  | none => .error .badGenerator
  | some 0 => .error .badGenerator
  | some (d + 1) => .ok (generatorOfDegree gen (d + 1))

/-- Generator validation of R130, on the operand word: the degree is the highest set bit, MAX_DEGREE at most. -/
def checkGenerator (c : Config) (imm : Word) : Except Cause Generator :=
  generatorOfTop (generatorOperand c imm) (highestSet (generatorOperand c imm) (c.maxDegree + 1))

/-! ## The burst length (42_burst_injector.md R160) -/

/-- `c = ceil(b / 8)`, `w = floor(b / 8)`, `r = b mod 8` of a burst of `b` bits. -/
structure BurstSize where
  c : Nat
  w : Nat
  r : Nat
deriving DecidableEq, Repr

/-- The parts of a burst length (R160). -/
def burstSize (b : Nat) : BurstSize := { c := ceilDiv8 b, w := b / 8, r := b % 8 }

end Sys2Proof.Machine
end

