-- ==== Sys2Proof/Machine/BitBuffer.lean ====
section
/-! DEFINITION. The BitBuffer commands (40_bitbuffer.md R103 to R112). For each command `run…` is its
pseudocode: the state it gives, or the fault it raises; `exec…` is its meaning. -/

namespace Sys2Proof.Machine

/-! ## Constructors -/

/-- R103. -/
def runFromBytes (d : Handle) (data : List Byte) (s : State) : Except Cause State := do
  checkD s d
  let _ ← alloc s.cfg (fromBytesSize s.cfg data.length)
  return s.setSlot d (some
    { sb := fromBytesSize s.cfg data.length, store := Memory.ofBytes 0 data, bl := 8 * data.length, res := 0 })

/-- `from_bytes` (R103). -/
def execFromBytes (d : Handle) (data : List Byte) (s : State) : Host.Outcome State Fault Refusal :=
  finish (.fromBytes d data) s (runFromBytes d data s)

/-- R104. The zeroed storage is the storage with no byte listed. -/
def runNewEmpty (d : Handle) (capBits : Word) (s : State) : Except Cause State := do
  checkD s d
  let st ← alloc s.cfg (newEmptySize capBits.toNat)
  return s.setSlot d (some { sb := newEmptySize capBits.toNat, store := st, bl := 0, res := 0 })

/-- `new_empty` (R104). -/
def execNewEmpty (d : Handle) (capBits : Word) (s : State) : Host.Outcome State Fault Refusal :=
  finish (.newEmpty d capBits) s (runNewEmpty d capBits s)

/-! ## Bit accessors -/

/-- R105. At `BL ≤ i < CAP` the result is a fresh draw from {0, 1} (D40; log 6). -/
def runGetBit (h : Handle) (index : Word) (s : State) : Except Cause State := do
  let b ← checkS s h
  if b.cap ≤ index.toNat then .error .outOfCapacity
  else if index.toNat < b.bl then return s.setResult (bitWord (b.store.bitRead s.cfg.bitOrder index.toNat))
  else return (s.setResult (bitWord (Config.drawBit s.draws))).countDraw

/-- `get_bit` (R105). -/
def execGetBit (h : Handle) (index : Word) (s : State) : Host.Outcome State Fault Refusal :=
  finish (.getBit h index) s (runGetBit h index s)

/-- R106. -/
def runSetBit (h : Handle) (index : Word) (v : Bool) (s : State) : Except Cause State := do
  let b ← checkS s h
  if b.cap ≤ index.toNat then .error .outOfCapacity
  else return s.setSlot h (some { b with store := b.store.bitWrite s.cfg.bitOrder index.toNat v })

/-- `set_bit` (R106). -/
def execSetBit (h : Handle) (index : Word) (v : Bool) (s : State) : Host.Outcome State Fault Refusal :=
  finish (.setBit h index v) s (runSetBit h index v s)

/-- R107. -/
def runPushBit (h : Handle) (v : Bool) (s : State) : Except Cause State := do
  let b ← checkS s h
  let b' ← pushBuffer s.cfg b v
  return s.setSlot h (some b')

/-- `push_bit` (R107). -/
def execPushBit (h : Handle) (v : Bool) (s : State) : Host.Outcome State Fault Refusal :=
  finish (.pushBit h v) s (runPushBit h v s)

/-- R108. -/
def runPopBit (h : Handle) (s : State) : Except Cause State := do
  let b ← checkS s h
  if b.bl = 0 then .error .popEmpty
  else
    let v := b.store.bitRead s.cfg.bitOrder (b.bl - 1)
    return (s.setSlot h (some { b with bl := b.bl - 1 })).setResult (bitWord v)

/-- `pop_bit` (R108). -/
def execPopBit (h : Handle) (s : State) : Host.Outcome State Fault Refusal :=
  finish (.popBit h) s (runPopBit h s)

/-! ## Lifecycle and queries -/

/-- R109. -/
def runFree (h : Handle) (s : State) : Except Cause State := do
  let _ ← checkS s h
  return s.setSlot h none

/-- `free` (R109). -/
def execFree (h : Handle) (s : State) : Host.Outcome State Fault Refusal :=
  finish (.free h) s (runFree h s)

/-- R110. -/
def runGetLen (h : Handle) (s : State) : Except Cause State := do
  let b ← checkS s h
  return s.setResult (BitVec.ofNat 32 b.bl)

/-- `get_len` (R110). -/
def execGetLen (h : Handle) (s : State) : Host.Outcome State Fault Refusal :=
  finish (.getLen h) s (runGetLen h s)

/-- R111. -/
def runGetCap (h : Handle) (s : State) : Except Cause State := do
  let b ← checkS s h
  return s.setResult (BitVec.ofNat 32 b.cap)

/-- `get_cap` (R111). -/
def execGetCap (h : Handle) (s : State) : Host.Outcome State Fault Refusal :=
  finish (.getCap h) s (runGetCap h s)

/-- R112. -/
def runGetResidue (h : Handle) (s : State) : Except Cause State := do
  let b ← checkS s h
  return s.setResult b.res

/-- `get_residue` (R112). -/
def execGetResidue (h : Handle) (s : State) : Host.Outcome State Fault Refusal :=
  finish (.getResidue h) s (runGetResidue h s)

end Sys2Proof.Machine
end

