-- ==== Sys2Proof/Machine/Crc.lean ====
section
/-! DEFINITION. The CRC engine and the endianness normalizer (41_crc_engine.md). The shift register and the
other transients of 10_state.md R29 to R31 exist only inside one command, so they are values of the
functions here and not fields of State. -/

namespace Sys2Proof.Machine

/-! ## The shift register (R132 to R136) -/

/-- The input sequence of R133, in(0) … in(BL+d-1): the message's valid bits, then `d` zero bits (R135). -/
def engineInput (o : BitOrder) (g : Generator) (b : Buffer) : List Bool := b.bits o ++ List.replicate g.deg false

/-- `TOP`: the register's most significant bit, before the shift (R134). -/
def engineTop (g : Generator) (sr : Word) : Bool := sr.getLsbD (g.deg - 1)

/-- One step of R134 on the input bit `v`. -/
def engineStep (g : Generator) (sr : Word) (v : Bool) : Word :=
  let shifted := ((sr <<< 1) ||| bitWord v) &&& g.wmask
  if engineTop g sr then shifted ^^^ g.xmask else shifted

/-- The register after the steps on `inputs`, from `sr`. -/
def engineRun (g : Generator) (sr : Word) (inputs : List Bool) : Word := inputs.foldl (engineStep g) sr

/-! ## Endianness normalizer (R137, R138) -/

/-- `host_is_big_endian()`: the instance constant (R137). -/
def hostIsBigEndian (c : Config) : Bool := c.hostBigEndian

/-- `reverse_bytes` (R138). -/
def reverseBytes (w : Word) : Word :=
  w.extractLsb' 0 8 ++ w.extractLsb' 8 8 ++ w.extractLsb' 16 8 ++ w.extractLsb' 24 8

/-- Normalization of a raw word: its bytes are reversed when the host is big-endian (R137). -/
def normalizeWord (c : Config) (w : Word) : Word := if hostIsBigEndian c then reverseBytes w else w

/-- The residue that a final register value gives (R136): normalized once when it is stored, and once more,
in compensation, before it is read as a number (R137; log 14). -/
def residueOfRegister (c : Config) (sr : Word) : Word := normalizeWord c (normalizeWord c sr)

/-- The residue of the message `b` (R132 to R136): the register starts at 0. -/
def crcResidue (c : Config) (g : Generator) (b : Buffer) : Word :=
  residueOfRegister c (engineRun g 0 (engineInput c.bitOrder g b))

/-! ## The output buffer (R139) -/

/-- The storage size of a CRC output: max(2 × ceil(BL/8), 1) (R139, D12). -/
def crcOutputSize (bl : Nat) : Nat := max (2 * ceilDiv8 bl) 1

/-- `Build(S, residue)` of R139. -/
def build (c : Config) (b : Buffer) (residue : Word) : Except Cause Buffer := do
  let _ ← alloc c (crcOutputSize b.bl)
  return { sb := crcOutputSize b.bl, store := b.store.firstBytes (ceilDiv8 b.bl), bl := b.bl, res := residue }

/-- The bits `v[d-1] … v[0]`, most significant first (00_scope.md R8). -/
def bitsMsbFirst (v : Word) : Nat → List Bool
  | 0 => []
  | d + 1 => v.getLsbD d :: bitsMsbFirst v d

/-! ## The two commands -/

/-- R140. -/
def runCrcEncode (d h : Handle) (gen : Word) (s : State) : Except Cause State := do
  let b ← checkS s h
  checkD s d
  let g ← checkGenerator s.cfg gen
  let residue := crcResidue s.cfg g b
  let out ← build s.cfg b residue
  let out' ← pushBits s.cfg out (bitsMsbFirst residue g.deg)
  return (s.setSlot d (some out')).setRnz (decide (residue ≠ 0))

/-- `crc.encode` (R140). -/
def execCrcEncode (d h : Handle) (gen : Word) (s : State) : Host.Outcome State Fault Refusal :=
  finish (.crcEncode d h gen) s (runCrcEncode d h gen s)

/-- R141: the same flush as encode (R147), nothing appended. -/
def runCrcDecode (d h : Handle) (gen : Word) (s : State) : Except Cause State := do
  let b ← checkS s h
  checkD s d
  let g ← checkGenerator s.cfg gen
  let residue := crcResidue s.cfg g b
  let out ← build s.cfg b residue
  return (s.setSlot d (some out)).setRnz (decide (residue ≠ 0))

/-- `crc.decode` (R141). -/
def execCrcDecode (d h : Handle) (gen : Word) (s : State) : Host.Outcome State Fault Refusal :=
  finish (.crcDecode d h gen) s (runCrcDecode d h gen s)

/-! ## Trace events (R146) -/

/-- One trace event: `(i, in(i), TOP, SR)`, `SR` being the value after the step. -/
structure TraceEvent where
  index : Nat
  input : Bool
  top : Bool
  sr : Word
deriving DecidableEq, Repr

/-- The events of the steps on `inputs`, the first of them step `i`, from the register value `sr`. -/
def engineTrace (g : Generator) (i : Nat) (sr : Word) : List Bool → List TraceEvent
  | [] => []
  | v :: vs =>
    { index := i, input := v, top := engineTop g sr, sr := engineStep g sr v }
      :: engineTrace g (i + 1) (engineStep g sr v) vs

/-- The events of one run of the engine over the buffer in slot `h`. -/
def crcEvents (h : Handle) (gen : Word) (s : State) : List TraceEvent :=
  match checkS s h, checkGenerator s.cfg gen with
  | .ok b, .ok g => engineTrace g 0 0 (engineInput s.cfg.bitOrder g b)
  | _, _ => []

/-- The events of a CRC command that ends as `r` says: all of them if it completes, and none if it faults
or the instance emits none (R146; log 13). -/
def emitted (s : State) (r : Except Cause State) (events : List TraceEvent) : List TraceEvent :=
  match r with
  | .ok _ => if s.cfg.traceEvents then events else []
  | .error _ => []

/-- The trace events that the command `i` emits when it executes in the state `s`: only the two CRC commands
emit any (R146, 60_exceptions.md R192). They change no state. -/
def traceOf (i : Instr) (s : State) : List TraceEvent :=
  match i with
  | .crcEncode d h gen => emitted s (runCrcEncode d h gen s) (crcEvents h gen s)
  | .crcDecode d h gen => emitted s (runCrcDecode d h gen s) (crcEvents h gen s)
  | .fromBytes _ _ => []
  | .newEmpty _ _ => []
  | .getBit _ _ => []
  | .setBit _ _ _ => []
  | .pushBit _ _ => []
  | .popBit _ => []
  | .free _ => []
  | .getLen _ => []
  | .getCap _ => []
  | .getResidue _ => []
  | .injectBurst _ _ _ => []

end Sys2Proof.Machine
end

