-- ==== Sys2Proof/Machine/Injector.lean ====
section
/-! DEFINITION. The burst error injector (42_burst_injector.md). -/

namespace Sys2Proof.Machine

/-- `FB`: the byte of a fill (R160, R163). -/
def fillByte : Fill → Byte
  | .high => 0xFF
  | .low => 0x00

/-- `PM`: the `r` most significant bits of a byte (R164). -/
def partialMask (r : Nat) : Byte := 0xFF#8 <<< (8 - r)

/-- The partial byte: the bits of `PM` set to the fill value, the others left (R164). -/
def partialByte (fill : Fill) (r : Nat) (v : Byte) : Byte :=
  match fill with
  | .high => v ||| partialMask r
  | .low => v &&& ~~~(partialMask r)

/-- Storage with the `n` bytes from index `off` on set to `v`. -/
def fillBytes (m : Memory) (off : Nat) (v : Byte) : Nat → Memory
  | 0 => m
  | n + 1 => (fillBytes m off v n).write (off + n) v

/-- The writes of R160 at the start offset `off`, on a buffer of `len` content bytes: the `w` whole bytes,
those at index ≥ `len` skipped, then the partial byte if there is one below `len` (R163 to R165;
log 16). -/
def burstWrites (m : Memory) (len off : Nat) (z : BurstSize) (fill : Fill) : Memory :=
  let whole := fillBytes m off (fillByte fill) (min (off + z.w) len - off)
  if 0 < z.r ∧ off + z.w < len then
    whole.write (off + z.w) (partialByte fill z.r (whole.read (off + z.w)))
  else whole

/-- `X = L - ceil(b/8) - 1`, a signed number, for a burst of `burstBits` bits on the buffer `b` (R161, R162). -/
def lastOffset (b : Buffer) (burstBits : Nat) : Int :=
  (ceilDiv8 b.bl : Int) - ((burstSize burstBits).c : Int) - 1

/-- The draw of an offset from {0, …, x}, `n` draws having been taken before (R162; log 6). -/
def drawnOffset (n x : Nat) : Nat := Config.drawOffset n % (x + 1)

/-- The start offset of the burst: a draw from {0, …, X} when X ≥ 0, else 0 (R162). -/
def burstOffset (s : State) (b : Buffer) (burstBits : Nat) : Nat :=
  if 0 ≤ lastOffset b burstBits then drawnOffset s.draws (lastOffset b burstBits).toNat else 0

/-- The effect of a burst of `burstBits` bits on slot `h`, holding `b`, at the start offset `off`. -/
def injectAt (h : Handle) (b : Buffer) (burstBits off : Nat) (fill : Fill) (s : State) : State :=
  s.setSlot h (some { b with store := burstWrites b.store (ceilDiv8 b.bl) off (burstSize burstBits) fill })

/-- R160. A draw is taken when X ≥ 0. -/
def runInjectBurst (h : Handle) (burstBits : Word) (fill : Fill) (s : State) : Except Cause State := do
  let b ← checkS s h
  let t := injectAt h b burstBits.toNat (burstOffset s b burstBits.toNat) fill s
  if 0 ≤ lastOffset b burstBits.toNat then return t.countDraw else return t

/-- `inject_burst` (R160). -/
def execInjectBurst (h : Handle) (burstBits : Word) (fill : Fill) (s : State) :
    Host.Outcome State Fault Refusal :=
  finish (.injectBurst h burstBits fill) s (runInjectBurst h burstBits fill s)

end Sys2Proof.Machine
end

