-- ==== Sys2Proof/Machine/Dispatch.lean ====
section
/-! DEFINITION. The effect of a command, executed outside the halted state: one arm per constructor. -/

namespace Sys2Proof.Machine

def exec (i : Instr) (s : State) : Host.Outcome State Fault Refusal :=
  match i with
  | .fromBytes d data => Sys2Proof.Machine.execFromBytes d data s
  | .newEmpty d capBits => Sys2Proof.Machine.execNewEmpty d capBits s
  | .getBit h index => Sys2Proof.Machine.execGetBit h index s
  | .setBit h index v => Sys2Proof.Machine.execSetBit h index v s
  | .pushBit h v => Sys2Proof.Machine.execPushBit h v s
  | .popBit h => Sys2Proof.Machine.execPopBit h s
  | .free h => Sys2Proof.Machine.execFree h s
  | .getLen h => Sys2Proof.Machine.execGetLen h s
  | .getCap h => Sys2Proof.Machine.execGetCap h s
  | .getResidue h => Sys2Proof.Machine.execGetResidue h s
  | .crcEncode d h gen => Sys2Proof.Machine.execCrcEncode d h gen s
  | .crcDecode d h gen => Sys2Proof.Machine.execCrcDecode d h gen s
  | .injectBurst h burstBits fill => Sys2Proof.Machine.execInjectBurst h burstBits fill s

end Sys2Proof.Machine
end

