-- ==== Sys2Proof/Machine/Step.lean ====
section
/-! DEFINITION. One step of the block: one whole command (70_reset_and_hazards.md R218). -/

namespace Sys2Proof.Machine

/-- One step. A halted block ignores its ports and changes nothing (60_exceptions.md R184; log 10). Otherwise
the block takes what stands at the front of its ports: it waits while no whole command has arrived
(30_encoding.md R70, R211; log 3), faults on an illegal word (R75), and executes a command atomically
(20_memory.md R56). -/
def step (s : State) : Host.Outcome State Fault Refusal :=
  if s.halted then .next s
  else match decode s.cmdPort s.dataPort with
    | .waiting => .next s
    | .illegal w _ => .next (takeFault .illegalCmd w s).takeWord
    | .command i words bytes => mapNext (State.retire words bytes) (exec i s)

/-- The state with one instruction of the table, given as a number, at the front of the two ports, where step
takes its next command: the host has submitted it (log 2). -/
def State.withFetchWord (s : State) (nbits w : Nat) : State :=
  { s with cmdPort := (layOut nbits w).1 ++ s.cmdPort, dataPort := (layOut nbits w).2 ++ s.dataPort }

/-- The trace events that the next step emits (41_crc_engine.md R146). -/
def stepTrace (s : State) : List TraceEvent :=
  if s.halted then []
  else match decode s.cmdPort s.dataPort with
    | .waiting => []
    | .illegal _ _ => []
    | .command i _ _ => traceOf i s

end Sys2Proof.Machine
end

