-- ==== Sys2Proof/Machine/Assembler.lean ====
section
/-! DEFINITION. The assembler syntax (30_encoding.md R81) as a printer, and the two pseudo-instructions with
their expansions (R82). Notation only: the machine does not use this file. -/

namespace Sys2Proof.Machine

/-- `b0` … `b15`. -/
def asmHandle (h : Handle) : String := "b" ++ toString h.toNat

/-- A bit value, `0` or `1`. -/
def asmBit (v : Bool) : String := if v then "1" else "0"

/-- A fill, `high` or `low`. -/
def asmFill : Fill → String
  | .high => "high"
  | .low => "low"

/-- A byte list in braces (characters 123 and 125). -/
def asmBytes (data : List Byte) : String :=
  String.singleton (Char.ofNat 123) ++ String.intercalate ", " (data.map fun v => toString v.toNat)
    ++ String.singleton (Char.ofNat 125)

/-- The assembler line of a command, numbers in decimal (R81). -/
def asm : Instr → String
  | .fromBytes d data => "from_bytes " ++ asmHandle d ++ ", " ++ asmBytes data
  | .newEmpty d c => "new_empty " ++ asmHandle d ++ ", " ++ toString c.toNat
  | .getBit s i => "get_bit " ++ asmHandle s ++ ", " ++ toString i.toNat
  | .setBit s i v => "set_bit " ++ asmHandle s ++ ", " ++ toString i.toNat ++ ", " ++ asmBit v
  | .pushBit s v => "push_bit " ++ asmHandle s ++ ", " ++ asmBit v
  | .popBit s => "pop_bit " ++ asmHandle s
  | .free s => "free " ++ asmHandle s
  | .getLen s => "get_len " ++ asmHandle s
  | .getCap s => "get_cap " ++ asmHandle s
  | .getResidue s => "get_residue " ++ asmHandle s
  | .crcEncode d s g => "crc.encode " ++ asmHandle d ++ ", " ++ asmHandle s ++ ", " ++ toString g.toNat
  | .crcDecode d s g => "crc.decode " ++ asmHandle d ++ ", " ++ asmHandle s ++ ", " ++ toString g.toNat
  | .injectBurst s b fill => "inject_burst " ++ asmHandle s ++ ", " ++ toString b.toNat ++ ", " ++ asmFill fill

/-- `crc.roundtrip bE, bR, bS, g` (R82). -/
def crcRoundtrip (e r s : Handle) (g : Word) : List Instr := [.crcEncode e s g, .crcDecode r e g]

/-- The pushes of `from_text`: the string ends at a newline, and any character but `0` and `1` is rejected. -/
def textPushes (d : Handle) : List Char → Option (List Instr)
  | [] => some []
  | c :: cs =>
    if c = '\n' then some []
    else if c = '0' then (textPushes d cs).map (Instr.pushBit d false :: ·)
    else if c = '1' then (textPushes d cs).map (Instr.pushBit d true :: ·)
    else none

/-- `from_text bD, "…"` (R82): `new_empty bD, 8`, then one `push_bit` a character. -/
def fromText (d : Handle) (text : List Char) : Option (List Instr) :=
  (textPushes d text).map (Instr.newEmpty d 8 :: ·)

end Sys2Proof.Machine
end

