-- ==== Sys2Proof/Machine/HostPort.lean ====
section
/-! DEFINITION. The host's interactions with the block, all of them (60_exceptions.md R193): submitting,
reading a register, reset. They act between steps. The fourth, supplying a draw, is the free values of
Config. -/

namespace Sys2Proof.Machine

/-- The host register space, read by name (10_state.md R32, 20_memory.md R58). -/
inductive HostReg where
  | result
  | status
  | faultCmd
deriving DecidableEq, Repr

/-- A host read of a register: it changes nothing, so it gives the value alone (20_memory.md R57). The
reserved bits of STATUS read as 0 (R34). -/
def hostRead (r : HostReg) (s : State) : Word :=
  match r with
  | .result => s.result
  | .status => s.status &&& 0x3F#32
  | .faultCmd => s.faultCmd

/-- The host writes one word on the command port (30_encoding.md R70). -/
def hostWord (w : Word) (s : State) : State := { s with cmdPort := s.cmdPort ++ [w] }

/-- The host writes one byte on the data byte port (30_encoding.md R77). -/
def hostByte (v : Byte) (s : State) : State := { s with dataPort := s.dataPort ++ [v] }

/-- The host submits a whole command: its words, then its data bytes (R70, R193). -/
def hostSubmit (i : Instr) (s : State) : State :=
  { s with cmdPort := s.cmdPort ++ encode i, dataPort := s.dataPort ++ encodeData i }

/-- The host resets the block (70_reset_and_hazards.md R210): the reset state, the configuration kept and
what stood on the ports discarded (log 5). Draws are the environment's, so their count goes on and a
draw after the reset is a fresh one (log 6). -/
def hostReset (s : State) : State := { State.resetWith s.cfg with draws := s.draws }

/-- What the host can submit: a whole command, or any single word or byte, so any stream on the two ports, an
illegal word included (60_exceptions.md R193). -/
inductive HostInput where
  | command (i : Instr)
  | word (w : Word)
  | byte (v : Byte)
deriving DecidableEq, Repr

/-- The host submits one input. -/
def hostInput : HostInput → State → State
  | .command i => hostSubmit i
  | .word w => hostWord w
  | .byte v => hostByte v

/-- The block takes every command that has arrived. As many steps as there are words suffice: a step that
takes a command takes a word or more. -/
def takeArrived (s : State) : Host.Outcome State Fault Refusal := core.run s.cmdPort.length s

/-- A run (70_reset_and_hazards.md R219): what the host submits, in order, the commands that each input
completes executed before the next (20_memory.md R60); the state after it. -/
def hostRun : List HostInput → State → Host.Outcome State Fault Refusal
  | [], s => .next s
  | x :: rest, s =>
    match takeArrived (hostInput x s) with
    | .next t => hostRun rest t
    | .fault r => .fault r
    | .refused r => .refused r

end Sys2Proof.Machine
end

