-- ==== Sys2Proof/Safety.lean ====
section
/-! DEFINITION. The terms in which claims are stated: the machine's invariant, the successful end of a run
(70_reset_and_hazards.md R219), and what the host can observe of a buffer (10_state.md R28). -/

namespace Sys2Proof.Machine

/-- What holds of every allocated buffer of an instance with the parameters `c`. -/
structure Buffer.Ok (c : Config) (b : Buffer) : Prop where
  /-- R23: 1 ≤ SB. -/
  size_pos : 1 ≤ b.sb
  /-- R23: SB ≤ MAX_SLOT_BYTES. -/
  size_max : b.sb ≤ c.maxSlotBytes
  /-- R24, R113: BL ≤ CAP. -/
  length_le : b.bl ≤ b.cap
  /-- R113: 4 × BL ≤ 3 × CAP. -/
  fill_le : 4 * b.bl ≤ 3 * b.cap
  /-- The storage is in canonical form. -/
  store_wf : b.store.wf = true
  /-- No byte at index ≥ SB is stored to (20_memory.md R50). -/
  store_lt : ∀ cell ∈ b.store, cell.1 < b.sb
  /-- R26 with R136: bits 31 down to d of a residue are 0, and d ≤ 31. -/
  res_lt : b.res.toNat < 2 ^ 31

/-- The invariant of the block: every reset state has it and every step keeps it. -/
structure State.Inv (s : State) : Prop where
  /-- The parameters are in their legal ranges (R6). -/
  cfg_wf : s.cfg.wf
  /-- Only slots below NSLOTS are allocated (R22), and their buffers are as R23 to R26 and R113 say. -/
  slot_ok : ∀ (h : Handle) (b : Buffer), s.slot h = some b → h.toNat < s.cfg.nslots ∧ b.Ok s.cfg
  /-- R34: the reserved bits of STATUS are 0. -/
  status_reserved : statusReserved s.status = 0
  /-- R34, R38: while FAULT = 0, CAUSE and FAULT_CMD are 0. -/
  no_fault : s.halted = false → statusCause s.status = 0 ∧ s.faultCmd = 0
  /-- R181: while FAULT = 1, CAUSE is one of the codes 1 … 7. -/
  fault_cause : s.halted = true → ∃ c : Cause, statusCause s.status = causeCode c

/-- The states of an instance with the parameters `c` that some use of the block reaches from reset: steps,
and every interaction the host has (60_exceptions.md R193), in any order. -/
inductive Reachable (c : Config) : State → Prop where
  | reset : Reachable c (State.resetWith c)
  | step {s t : State} : Reachable c s → Machine.step s = .next t → Reachable c t
  | word {s : State} (w : Word) : Reachable c s → Reachable c (hostWord w s)
  | byte {s : State} (v : Byte) : Reachable c s → Reachable c (hostByte v s)
  | hostReset {s : State} : Reachable c s → Reachable c (hostReset s)

/-! ## What a command names, raises and stores to -/

/-- The slot a command creates a buffer in, its field `D` where it uses one (30_encoding.md R74). -/
def destination : Instr → Option Handle
  | .fromBytes d _ => some d
  | .newEmpty d _ => some d
  | .crcEncode d _ _ => some d
  | .crcDecode d _ _ => some d
  | .getBit _ _ => none
  | .setBit _ _ _ => none
  | .pushBit _ _ => none
  | .popBit _ => none
  | .free _ => none
  | .getLen _ => none
  | .getCap _ => none
  | .getResidue _ => none
  | .injectBurst _ _ _ => none

/-- The slot whose existing buffer a command uses, its field `S` where it uses one (30_encoding.md R74). -/
def source : Instr → Option Handle
  | .fromBytes _ _ => none
  | .newEmpty _ _ => none
  | .crcEncode _ s _ => some s
  | .crcDecode _ s _ => some s
  | .getBit s _ => some s
  | .setBit s _ _ => some s
  | .pushBit s _ => some s
  | .popBit s => some s
  | .free s => some s
  | .getLen s => some s
  | .getCap s => some s
  | .getResidue s => some s
  | .injectBurst s _ _ => some s

/-- The two CRC commands. -/
def isCrc : Instr → Bool
  | .crcEncode _ _ _ => true
  | .crcDecode _ _ _ => true
  | .fromBytes _ _ => false
  | .newEmpty _ _ => false
  | .getBit _ _ => false
  | .setBit _ _ _ => false
  | .pushBit _ _ => false
  | .popBit _ => false
  | .free _ => false
  | .getLen _ => false
  | .getCap _ => false
  | .getResidue _ => false
  | .injectBurst _ _ _ => false

/-- The five commands that write RESULT (10_state.md R32, R33). -/
def writesResult : Instr → Bool
  | .getBit _ _ => true
  | .popBit _ => true
  | .getLen _ => true
  | .getCap _ => true
  | .getResidue _ => true
  | .fromBytes _ _ => false
  | .newEmpty _ _ => false
  | .setBit _ _ _ => false
  | .pushBit _ _ => false
  | .free _ => false
  | .crcEncode _ _ _ => false
  | .crcDecode _ _ _ => false
  | .injectBurst _ _ _ => false

/-- The faults each command can raise, in the order they are checked (60_exceptions.md R182). -/
def possibleFaults : Instr → List Cause
  | .fromBytes _ _ => [.badHandle, .slotInUse, .allocFail]
  | .newEmpty _ _ => [.badHandle, .slotInUse, .allocFail]
  | .getBit _ _ => [.badHandle, .outOfCapacity]
  | .setBit _ _ _ => [.badHandle, .outOfCapacity]
  | .pushBit _ _ => [.badHandle, .allocFail]
  | .popBit _ => [.badHandle, .popEmpty]
  | .free _ => [.badHandle]
  | .getLen _ => [.badHandle]
  | .getCap _ => [.badHandle]
  | .getResidue _ => [.badHandle]
  | .crcEncode _ _ _ => [.badHandle, .slotInUse, .badGenerator, .allocFail]
  | .crcDecode _ _ _ => [.badHandle, .slotInUse, .badGenerator, .allocFail]
  | .injectBurst _ _ _ => [.badHandle]

/-- Byte `k` of slot `h`'s storage is one that the command stores to, or that comes and goes with its slot
(20_memory.md R55): the byte of the bit that `set_bit` and `push_bit` write, the bytes of a burst, all
the storage of a slot that the command creates or frees. -/
def storesTo (i : Instr) (s : State) (h : Handle) (k : Nat) : Prop :=
  match i with
  | .fromBytes d _ => h = d
  | .newEmpty d _ => h = d
  | .crcEncode d _ _ => h = d
  | .crcDecode d _ _ => h = d
  | .free g => h = g
  | .setBit g index _ => h = g ∧ k = index.toNat / 8
  | .pushBit g _ => h = g ∧ ∃ b, s.slot g = some b ∧ k = b.bl / 8
  | .injectBurst g burstBits _ => h = g ∧ ∃ b, s.slot g = some b ∧
      burstOffset s b burstBits.toNat ≤ k ∧
      k < min (burstOffset s b burstBits.toNat + ceilDiv8 burstBits.toNat) (ceilDiv8 b.bl)
  | .getBit _ _ => False
  | .popBit _ => False
  | .getLen _ => False
  | .getCap _ => False
  | .getResidue _ => False

/-! ## Ends of runs -/

/-- A run can have ended in the state `s` (R219): no command stands on the port, partly received or not; or the
block is halted, when what stands on the ports is ignored for good and is no command partly received (R184). -/
def State.runEnded (s : State) : Bool := s.halted || s.cmdPort.isEmpty

/-- The run ended successfully (R219): at its end FAULT = 0. -/
def State.runSucceeded (s : State) : Bool := s.runEnded && !s.halted

/-- Two buffers look the same to the host: same valid bits, same CAP, same RES (R28). -/
structure Buffer.SameView (o : BitOrder) (a b : Buffer) : Prop where
  bits : a.bits o = b.bits o
  cap : a.cap = b.cap
  res : a.res = b.res

/-- Two slots look the same to the host: both FREE, or both ALLOC with buffers that do. -/
def SlotSameView (o : BitOrder) : Option Buffer → Option Buffer → Prop
  | none, none => True
  | some a, some b => a.SameView o b
  | none, some _ => False
  | some _, none => False

/-- Two states of one instance look the same to the host: they may differ only in storage bits at index ≥ BL
(R28, R39 item 2), with the same input on the ports and the same draws to come. -/
structure State.SameView (s t : State) : Prop where
  cfg : s.cfg = t.cfg
  slots : ∀ h : Handle, SlotSameView s.cfg.bitOrder (s.slot h) (t.slot h)
  result : s.result = t.result
  status : s.status = t.status
  faultCmd : s.faultCmd = t.faultCmd
  cmdPort : s.cmdPort = t.cmdPort
  dataPort : s.dataPort = t.dataPort
  draws : s.draws = t.draws

/-! ## Bit sequences as polynomials over GF(2) (00_scope.md R13) -/

/-- The polynomial of a bit sequence, its first bit the highest power. -/
noncomputable def bitsPoly (bits : List Bool) : Polynomial (ZMod 2) :=
  bits.foldl (fun p v => p * Polynomial.X + Polynomial.C (if v then 1 else 0)) 0

/-- The polynomial of a word, its bit k the coefficient of x^k. -/
noncomputable def wordPoly (w : Word) : Polynomial (ZMod 2) :=
  ∑ k ∈ Finset.range 32, if w.getLsbD k then Polynomial.X ^ k else 0

end Sys2Proof.Machine
end

