-- ==== Sys2Proof/Certificates/Slice0/Obligations.lean ====
section
/-! DEFINITION. The statements about the model, from the numbered rules of spec/. Every statement about a
command's own effect assumes the block is not halted (60_exceptions.md R190). -/

open Sys2Proof Sys2Proof.Machine

/-! ## Encoding (30_encoding.md) -/

/-- R70, R71, R76 to R80: decoding what the encoder writes gives the command back, with every operand, and
leaves what stands behind it. -/
def Obligations.DecodeOfEncodeIsTheCommand : Prop :=
  ∀ (i : Instr) (words : List Word) (bytes : List Byte), i.wellFormed = true →
    decode (encode i ++ words) (encodeData i ++ bytes) = .command i words bytes

/-- R75, R79: each command has one encoding, so whatever decodes to a command is its encoding and what
stands behind it. -/
def Obligations.DecodedInputIsTheEncoding : Prop :=
  ∀ (words : List Word) (bytes : List Byte) (i : Instr) (words' : List Word) (bytes' : List Byte),
    decode words bytes = .command i words' bytes' →
    i.wellFormed = true ∧ words = encode i ++ words' ∧ bytes = encodeData i ++ bytes'

/-- R75: a word is illegal exactly under its six conditions and then raises ILLEGAL_CMD, the all-zero word is
illegal, and every word is illegal or a word of exactly one row. That the fault is taken as soon as the word
stands at the front, whatever follows it, also where its OP takes an operand word (R78), is the model's reading
(log 3, DEDUCED). -/
def Obligations.IllegalWordsAreThoseOfTheSixConditions : Prop :=
  (∀ w : Word, (∃ why, decodeWord w 0 [] = .error why) ↔
    (w.extractLsb' 28 4 ∈ [0x0#4, 0xD#4, 0xE#4, 0xF#4] ∨
     w.extractLsb' 24 3 ≠ 0#3 ∨
     w.extractLsb' 0 16 ≠ 0#16 ∨
     (w.getLsbD 27 = true ∧ w.extractLsb' 28 4 ∉ [0x4#4, 0x5#4, 0xB#4, 0xC#4]) ∨
     (w.extractLsb' 20 4 ≠ 0#4 ∧ w.extractLsb' 28 4 ∉ [0x1#4, 0x2#4, 0xB#4]) ∨
     (w.extractLsb' 16 4 ≠ 0#4 ∧
       w.extractLsb' 28 4 ∉ [0x3#4, 0x4#4, 0x5#4, 0x6#4, 0x7#4, 0x8#4, 0x9#4, 0xA#4, 0xB#4, 0xC#4]))) ∧
  (∀ (s : State) (w : Word) (rest : List Word) (why : Illegal), s.halted = false → s.cmdPort = w :: rest →
    decodeWord w 0 [] = .error why →
    ∃ t, step s = .next t ∧
      t = { s with status := statusEnterFault s.status .illegalCmd, faultCmd := w, cmdPort := t.cmdPort }) ∧
  (∃ why, decodeWord 0 0 [] = .error why) ∧
  (∀ w : Word, (∃ why, decodeWord w 0 [] = .error why) ↔ ∀ r ∈ opcodeTable, r.matches w = false) ∧
  opcodeTable.Pairwise (fun r q => ∀ w : Word, ¬ (r.matches w = true ∧ q.matches w = true))

/-- R79, R80: a word decodes to a command of a row exactly when it matches the row. -/
def Obligations.DecodeAgreesWithTheTable : Prop :=
  ∀ (w imm : Word) (data : List Byte) (r : OpcodeRow), r ∈ opcodeTable →
    (r.matches w = true ↔ ∃ i, decodeWord w imm data = .ok i ∧ opcodeRow i = r)

/-- R72, R80 and the words of 95_test_vectors.md: a few words decode to the command they stand for. -/
def Obligations.SpecWordsDecode : Prop :=
  decodeTableWord 32 0x10F00000 = some (.fromBytes 15 []) ∧
  decodeTableWord 32 0x20300000 = some (.newEmpty 3 0) ∧
  decodeTableWord 32 0x48020000 = some (.setBit 2 0 true) ∧
  decodeTableWord 32 0x58030000 = some (.pushBit 3 true) ∧
  decodeTableWord 64 0x00018005B0100000 = some (.crcEncode 1 0 0x18005) ∧
  decodeTableWord 32 0xB8210000 = some (.crcDecode 2 1 0) ∧
  decodeTableWord 64 0x0000000CC8050000 = some (.injectBurst 5 12 .high) ∧
  decodeTableWord 32 0xC0150000 = none

/-! ## The step (R56, R70, R184, R211, R218) -/

/-- R70, R56, R218: when the ports hold a whole command, a step is exec of that command; the command is taken
off the ports, or, where it faulted, its command word alone (R184; log 4). -/
def Obligations.StepRunsTheDecodedCommand : Prop :=
  ∀ (s t : State) (i : Instr) (words : List Word) (bytes : List Byte), s.halted = false →
    decode s.cmdPort s.dataPort = .command i words bytes → exec i s = .next t →
    step s = .next (if t.halted then { t with cmdPort := s.cmdPort.tail }
      else { t with cmdPort := words, dataPort := bytes })

/-- R70, R193: a command submitted to an idle block runs at the next step, exactly as exec says, and nothing
of it is left on the ports unless it faulted, when its operand word and data bytes stay (R184; log 4). -/
def Obligations.SubmittedCommandRunsNext : Prop :=
  ∀ (s t : State) (i : Instr), s.halted = false → s.cmdPort = [] → s.dataPort = [] →
    i.wellFormed = true → exec i s = .next t →
    step (hostSubmit i s) = .next (if t.halted
      then { t with cmdPort := operandWords i, dataPort := encodeData i } else t)

/-- R70, R211: the block waits, unchanged, while nothing stands on the command port, while a command's operand
word is missing, and while some of its data bytes are (log 3). -/
def Obligations.BlockWaitsForAWholeCommand : Prop :=
  ∀ s : State, s.halted = false →
    (s.cmdPort = [] → step s = .next s) ∧
    (∀ i : Instr, operandWords i ≠ [] → s.cmdPort = [cmdWord i] → step s = .next s) ∧
    (∀ i : Instr, i.wellFormed = true → s.cmdPort = encode i →
      s.dataPort.length < (encodeData i).length → step s = .next s)

/-- R184, R186: a halted block changes nothing at any number of steps, ignores what the host writes, shows the
same registers, and is the end of a run that has failed (R219; log 20, DEDUCED); reset leaves the halted state. -/
def Obligations.HaltedBlockIgnoresAllButReset : Prop :=
  ∀ s : State, s.halted = true →
    (∀ n : Nat, core.run n s = .next s) ∧
    (∀ (w : Word) (n : Nat), core.run n (hostWord w s) = .next (hostWord w s)) ∧
    (∀ (v : Byte) (n : Nat), core.run n (hostByte v s) = .next (hostByte v s)) ∧
    (∀ (i : Instr) (r : HostReg), step (hostSubmit i s) = .next (hostSubmit i s) ∧
      hostRead r (hostSubmit i s) = hostRead r s) ∧
    s.runEnded = true ∧ s.runSucceeded = false ∧ (hostReset s).halted = false

/-- The model's choice (log 10, DEDUCED): taking a fault is a next state and the type `Fault` is empty, so no step
stops; every step, from any state, gives a next state. -/
def Obligations.EveryStepGivesANextState : Prop :=
  ∀ s : State, ∃ t, step s = .next t

/-! ## Reset and the invariant -/

/-- R40: the state right after reset, of an instance with any parameters. -/
def Obligations.ResetStateIsTheTable : Prop :=
  ∀ (c : Config) (h : Handle), (State.resetWith c).slot h = none ∧ (State.resetWith c).result = 0 ∧
    (State.resetWith c).status = 0 ∧ (State.resetWith c).faultCmd = 0 ∧
    statusFault (State.resetWith c).status = false ∧ statusCause (State.resetWith c).status = 0 ∧
    statusRnz (State.resetWith c).status = false ∧ statusReserved (State.resetWith c).status = 0

/-- R210: what the host's reset does, from any state. That it empties both ports is R210's discarding of a
partly received command, and for whole commands still waiting there the model's choice (log 5). -/
def Obligations.HostResetClearsAllButConfiguration : Prop :=
  ∀ (s : State) (h : Handle), (hostReset s).slot h = none ∧ (hostReset s).result = 0 ∧
    (hostReset s).status = 0 ∧ (hostReset s).faultCmd = 0 ∧ (hostReset s).halted = false ∧
    (hostReset s).cmdPort = [] ∧ (hostReset s).dataPort = [] ∧ (hostReset s).cfg = s.cfg ∧
    step (hostReset s) = .next (hostReset s)

/-- The invariant holds at reset, of every legal instance (R6, R40), `State.reset` among them. -/
def Obligations.ResetHasTheInvariant : Prop :=
  (∀ c : Config, c.wf → (State.resetWith c).Inv) ∧ State.reset.Inv

/-- Every step keeps the invariant: legal sizes, canonical storage, BL ≤ CAP and 3/4 fill, residues below
2^31, reserved STATUS bits 0, and CAUSE and FAULT_CMD as FAULT says (R22 to R26, R34, R38, R113). -/
def Obligations.EveryStepKeepsTheInvariant : Prop :=
  ∀ s t : State, s.Inv → step s = .next t → t.Inv

/-- R113: in every reachable state every allocated buffer satisfies BL ≤ CAP and 4 × BL ≤ 3 × CAP; its BL
and CAP fit in 32 bits (R24, R110). -/
def Obligations.ReachableBuffersAreWithinCapacity : Prop :=
  ∀ (c : Config) (s : State), c.wf → Reachable c s → ∀ (h : Handle) (b : Buffer), s.slot h = some b →
    b.bl ≤ b.cap ∧ 4 * b.bl ≤ 3 * b.cap ∧ b.cap < 2 ^ 32

/-! ## Faults (60_exceptions.md) -/

/-- R183: fault entry is precise, for every command and every illegal word. Of the block's state before the
faulting command only STATUS and FAULT_CMD change; STATUS then reads 1 | (c << 1) | (RNZ << 5), FAULT_CMD
holds the command word, and the block is halted: no step changes it any more. What is left on the ports is
said by `StepRunsTheDecodedCommand`. -/
def Obligations.FaultEntryIsPrecise : Prop :=
  ∀ s t : State, s.halted = false → step s = .next t → t.halted = true →
    ∃ (c : Cause) (w : Word) (rest : List Word), s.cmdPort = w :: rest ∧
      t = { s with status := t.status, faultCmd := w, cmdPort := t.cmdPort, dataPort := t.dataPort } ∧
      step t = .next t ∧
      statusFault t.status = true ∧ statusCause t.status = causeCode c ∧
      statusRnz t.status = statusRnz s.status ∧ statusReserved t.status = statusReserved s.status ∧
      (statusReserved s.status = 0 →
        t.status = 1#32 ||| ((causeCode c).setWidth 32 <<< 1) |||
          (if statusRnz s.status then 1#32 <<< 5 else 0#32))

/-- R181, R182: the fault a command raises is one of those the table gives it, with the table's code. -/
def Obligations.FaultsAreThoseOfTheTable : Prop :=
  (∀ (i : Instr) (s t : State), s.halted = false → exec i s = .next t → t.halted = true →
    ∃ c ∈ possibleFaults i, t = takeFault c (cmdWord i) s) ∧
  [Cause.illegalCmd, .badHandle, .slotInUse, .badGenerator, .allocFail, .popEmpty, .outOfCapacity].map causeCode
    = [1#4, 2#4, 3#4, 4#4, 5#4, 6#4, 7#4]

/-- R100, R185: every command that uses `S` faults with BAD_HANDLE when `S` is at or above NSLOTS or names a
FREE slot, whatever else is wrong with it. -/
def Obligations.UnallocatedSourceIsBadHandle : Prop :=
  ∀ (i : Instr) (s : State) (h : Handle), s.halted = false → source i = some h →
    (s.cfg.nslots ≤ h.toNat ∨ s.slot h = none) →
    exec i s = .next (takeFault .badHandle (cmdWord i) s)

/-- R100, R185: a command that uses `D`, its `S` being allocated where it uses one, faults with BAD_HANDLE
when `D` is at or above NSLOTS, and with SLOT_IN_USE when `D` names an allocated slot. -/
def Obligations.UnusableDestinationFaults : Prop :=
  ∀ (i : Instr) (s : State) (d : Handle), s.halted = false → destination i = some d →
    (∀ h, source i = some h → h.toNat < s.cfg.nslots ∧ ∃ b, s.slot h = some b) →
    (s.cfg.nslots ≤ d.toNat → exec i s = .next (takeFault .badHandle (cmdWord i) s)) ∧
    (d.toNat < s.cfg.nslots → (∃ b, s.slot d = some b) →
      exec i s = .next (takeFault .slotInUse (cmdWord i) s))

/-- R130, R185: a CRC command whose slots pass faults with BAD_GENERATOR when the generator is 0 or 1. -/
def Obligations.GeneratorBelowTwoIsBadGenerator : Prop :=
  ∀ (s : State) (d h : Handle) (gen : Word) (b : Buffer), s.halted = false →
    h.toNat < s.cfg.nslots → s.slot h = some b → d.toNat < s.cfg.nslots → s.slot d = none → gen.toNat < 2 →
    exec (.crcEncode d h gen) s = .next (takeFault .badGenerator (cmdWord (.crcEncode d h gen)) s) ∧
    exec (.crcDecode d h gen) s = .next (takeFault .badGenerator (cmdWord (.crcDecode d h gen)) s)

/-- R105, R106, R108: a bit index at or above CAP is OUT_OF_CAPACITY, and popping an empty buffer is
POP_EMPTY. -/
def Obligations.AccessOutsideTheBufferFaults : Prop :=
  ∀ (s : State) (h : Handle) (b : Buffer), s.halted = false → h.toNat < s.cfg.nslots → s.slot h = some b →
    (∀ index : Word, b.cap ≤ index.toNat →
      exec (.getBit h index) s = .next (takeFault .outOfCapacity (cmdWord (.getBit h index)) s) ∧
      ∀ v, exec (.setBit h index v) s =
        .next (takeFault .outOfCapacity (cmdWord (.setBit h index v)) s)) ∧
    (b.bl = 0 → exec (.popBit h) s = .next (takeFault .popEmpty (cmdWord (.popBit h)) s))

/-- R59, R101 to R104, R107, R139, R140: what needs more storage than MAX_SLOT_BYTES raises ALLOC_FAIL: a
constructor, a CRC output, the output's growth for the residue, a push's doubling. -/
def Obligations.StorageBeyondTheLimitIsAllocFail : Prop :=
  (∀ (s : State) (d : Handle), s.cfg.wf → s.halted = false → d.toNat < s.cfg.nslots → s.slot d = none →
    (∀ data : List Byte, s.cfg.maxSlotBytes < max (2 * data.length) 1 →
      exec (.fromBytes d data) s = .next (takeFault .allocFail (cmdWord (.fromBytes d data)) s)) ∧
    (∀ capBits : Word, s.cfg.maxSlotBytes < max ((capBits.toNat + 7) / 8) 1 →
      exec (.newEmpty d capBits) s = .next (takeFault .allocFail (cmdWord (.newEmpty d capBits)) s))) ∧
  (∀ (s : State) (h : Handle) (b : Buffer) (v : Bool), s.Inv → s.halted = false → s.slot h = some b →
    3 * b.cap < 4 * (b.bl + 1) → s.cfg.maxSlotBytes < 2 * b.sb →
    exec (.pushBit h v) s = .next (takeFault .allocFail (cmdWord (.pushBit h v)) s)) ∧
  (∀ (s : State) (d h : Handle) (b : Buffer) (gen : Word) (n : Nat), s.Inv → s.halted = false →
    d.toNat < s.cfg.nslots → s.slot d = none → s.slot h = some b →
    1 ≤ n → gen.getLsbD n = true → (∀ j, n < j → gen.getLsbD j = false) →
    (s.cfg.maxSlotBytes < max (2 * ((b.bl + 7) / 8)) 1 →
      exec (.crcDecode d h gen) s = .next (takeFault .allocFail (cmdWord (.crcDecode d h gen)) s)) ∧
    ((∀ k, max (2 * ((b.bl + 7) / 8)) 1 * 2 ^ k ≤ s.cfg.maxSlotBytes →
        3 * (8 * (max (2 * ((b.bl + 7) / 8)) 1 * 2 ^ k)) < 4 * (b.bl + n)) →
      exec (.crcEncode d h gen) s = .next (takeFault .allocFail (cmdWord (.crcEncode d h gen)) s)))

/-- R38: FAULT_CMD is written only at fault entry, with the word that stood at the front of the command port;
while FAULT = 0 it holds 0. -/
def Obligations.FaultCmdIsWrittenOnlyAtFaultEntry : Prop :=
  ∀ s t : State, s.Inv → step s = .next t →
    (t.faultCmd ≠ s.faultCmd → s.halted = false ∧ t.halted = true) ∧
    (s.halted = false → t.halted = true → s.cmdPort.head? = some t.faultCmd) ∧
    (t.halted = false → t.faultCmd = 0)

/-! ## BitBuffer commands (40_bitbuffer.md) -/

/-- R103: `from_bytes` completes and gives the buffer of its bytes, when its slot is free and the storage is
within the limit. Bit 8k + j of the buffer is bit 7 - j of data byte k (R52). -/
def Obligations.FromBytesCreatesTheBuffer : Prop :=
  ∀ (s : State) (d : Handle) (data : List Byte), s.cfg.wf → s.halted = false →
    d.toNat < s.cfg.nslots → s.slot d = none → max (2 * data.length) 1 ≤ s.cfg.maxSlotBytes →
    ∃ b : Buffer, exec (.fromBytes d data) s = .next (s.setSlot d (some b)) ∧
      b.sb = max (2 * data.length) 1 ∧ b.bl = 8 * data.length ∧ b.res = 0 ∧ b.store.wf = true ∧
      ∀ (k : Nat) (hk : k < data.length), b.store.read k = data[k] ∧
        ∀ j < 8, (b.bits s.cfg.bitOrder)[8 * k + j]? = some (data[k].getLsbD (7 - j))

/-- R104: `new_empty` completes and gives an empty buffer of zeroed storage, its capacity a multiple of 8 bits
and at least the one asked for. -/
def Obligations.NewEmptyCreatesZeroedStorage : Prop :=
  ∀ (s : State) (d : Handle) (capBits : Word), s.halted = false → d.toNat < s.cfg.nslots →
    s.slot d = none → max ((capBits.toNat + 7) / 8) 1 ≤ s.cfg.maxSlotBytes →
    ∃ b : Buffer, exec (.newEmpty d capBits) s = .next (s.setSlot d (some b)) ∧
      b.sb = max ((capBits.toNat + 7) / 8) 1 ∧ capBits.toNat ≤ b.cap ∧ b.bl = 0 ∧ b.res = 0 ∧
      b.bits s.cfg.bitOrder = [] ∧ ∀ k, b.store.read k = 0

/-- R105: `get_bit` below BL completes with the bit, zero-extended, in RESULT; at BL ≤ i < CAP it completes
too, changing RESULT alone, and RESULT is a free value 0 or 1 (D40; log 6), with one more draw counted. -/
def Obligations.GetBitReadsTheBit : Prop :=
  ∀ (s : State) (h : Handle) (index : Word) (b : Buffer), s.halted = false → h.toNat < s.cfg.nslots →
    s.slot h = some b →
    (∀ v : Bool, (b.bits s.cfg.bitOrder)[index.toNat]? = some v → index.toNat < b.cap →
      exec (.getBit h index) s = .next (s.setResult (if v then 1 else 0))) ∧
    (b.bl ≤ index.toNat → index.toNat < b.cap →
      ∃ v : Word, (v = 0 ∨ v = 1) ∧ exec (.getBit h index) s = .next (s.setResult v).countDraw)

/-- R106: `set_bit` below CAP completes; it changes the one bit of the storage, so the valid bit of that
index if there is one, and no byte but that bit's; SB, BL and RES stay. -/
def Obligations.SetBitWritesOneBit : Prop :=
  ∀ (s : State) (h : Handle) (index : Word) (v : Bool) (b : Buffer), s.Inv → s.halted = false →
    s.slot h = some b → index.toNat < b.cap →
    ∃ b' : Buffer, exec (.setBit h index v) s = .next (s.setSlot h (some b')) ∧
      b'.sb = b.sb ∧ b'.bl = b.bl ∧ b'.res = b.res ∧
      b'.bits s.cfg.bitOrder = (b.bits s.cfg.bitOrder).set index.toNat v ∧
      (∀ j, b'.store.bitRead s.cfg.bitOrder j = if j = index.toNat then v else b.store.bitRead s.cfg.bitOrder j) ∧
      ∀ k, k ≠ index.toNat / 8 → b'.store.read k = b.store.read k

/-- R107, R102: `push_bit` completes when no growth is needed or the doubling is within the limit; it appends
the bit, keeps RES and every other byte, and doubles CAP exactly when 4 × (BL + 1) > 3 × CAP. That a byte the
growth brings in (SB ≤ k, which R102 leaves unspecified) reads as before is the model's choice (log 7). -/
def Obligations.PushBitAppendsOneBit : Prop :=
  ∀ (s : State) (h : Handle) (v : Bool) (b : Buffer), s.Inv → s.halted = false → s.slot h = some b →
    (4 * (b.bl + 1) ≤ 3 * b.cap ∨ 2 * b.sb ≤ s.cfg.maxSlotBytes) →
    ∃ b' : Buffer, exec (.pushBit h v) s = .next (s.setSlot h (some b')) ∧
      b'.bits s.cfg.bitOrder = b.bits s.cfg.bitOrder ++ [v] ∧ b'.bl = b.bl + 1 ∧ b'.res = b.res ∧
      b'.cap = (if 3 * b.cap < 4 * (b.bl + 1) then 2 * b.cap else b.cap) ∧
      ∀ k, k ≠ b.bl / 8 → b'.store.read k = b.store.read k

/-- R108: `pop_bit` of a buffer that is not empty completes with its last bit in RESULT, one bit shorter,
storage, CAP and RES unchanged. -/
def Obligations.PopBitReturnsTheLastBit : Prop :=
  ∀ (s : State) (h : Handle) (b : Buffer) (rest : List Bool) (v : Bool), s.halted = false →
    h.toNat < s.cfg.nslots → s.slot h = some b → b.bits s.cfg.bitOrder = rest ++ [v] →
    ∃ b' : Buffer, exec (.popBit h) s = .next ((s.setSlot h (some b')).setResult (if v then 1 else 0)) ∧
      b'.bits s.cfg.bitOrder = rest ∧ b'.bl + 1 = b.bl ∧ b'.store = b.store ∧ b'.sb = b.sb ∧ b'.res = b.res

/-- R109: `free` completes, and the slot is FREE, so the next use of it faults with BAD_HANDLE (R100). -/
def Obligations.FreeReleasesTheSlot : Prop :=
  ∀ (s : State) (h : Handle) (b : Buffer), s.halted = false → h.toNat < s.cfg.nslots → s.slot h = some b →
    exec (.free h) s = .next (s.setSlot h none) ∧
    exec (.free h) (s.setSlot h none) =
      .next (takeFault .badHandle (cmdWord (.free h)) (s.setSlot h none))

/-- R110 to R112: the three queries complete with BL, CAP and RES in RESULT. -/
def Obligations.QueriesReturnTheFields : Prop :=
  ∀ (s : State) (h : Handle) (b : Buffer), s.Inv → s.halted = false → s.slot h = some b →
    ∃ len cap : Word, len.toNat = b.bl ∧ cap.toNat = 8 * b.sb ∧
      exec (.getLen h) s = .next (s.setResult len) ∧
      exec (.getCap h) s = .next (s.setResult cap) ∧
      exec (.getResidue h) s = .next (s.setResult b.res)

/-! ## CRC engine (41_crc_engine.md) -/

/-- R130, R131: a generator below 2 is BAD_GENERATOR; any other has as degree its highest set bit, 1 to 31,
WMASK with the d low bits set, and XMASK = gen & WMASK. -/
def Obligations.GeneratorDegreeAndMasks : Prop :=
  ∀ (c : Config) (gen : Word), c.wf →
    (gen.toNat < 2 → checkGenerator c gen = .error .badGenerator) ∧
    (2 ≤ gen.toNat → ∃ g : Generator, checkGenerator c gen = .ok g ∧ 1 ≤ g.deg ∧ g.deg ≤ 31 ∧
      gen.getLsbD g.deg = true ∧ (∀ j, g.deg < j → gen.getLsbD j = false) ∧
      g.wmask.toNat = 2 ^ g.deg - 1 ∧ g.xmask = gen &&& g.wmask ∧ g.xmask.toNat = gen.toNat - 2 ^ g.deg)

/-- R29, R134: after every step the register is masked to its width d. -/
def Obligations.RegisterStaysWithinItsWidth : Prop :=
  ∀ (c : Config) (gen : Word) (g : Generator) (inputs : List Bool), c.wf → checkGenerator c gen = .ok g →
    (engineRun g 0 inputs).toNat < 2 ^ g.deg

/-- R140: `crc.encode` completes when its slots and generator pass and some doubling of the output's size
holds the codeword within the limit: the output is the message followed by the residue's d bits, most
significant first, its size the least such doubling; RES and RNZ tell the residue. -/
def Obligations.EncodeAppendsTheResidue : Prop :=
  ∀ (s : State) (d h : Handle) (gen : Word) (n k : Nat) (b : Buffer), s.Inv → s.halted = false →
    s.slot h = some b → d.toNat < s.cfg.nslots → s.slot d = none →
    1 ≤ n → gen.getLsbD n = true → (∀ j, n < j → gen.getLsbD j = false) →
    4 * (b.bl + n) ≤ 3 * (8 * (max (2 * ((b.bl + 7) / 8)) 1 * 2 ^ k)) →
    max (2 * ((b.bl + 7) / 8)) 1 * 2 ^ k ≤ s.cfg.maxSlotBytes →
    ∃ out : Buffer, exec (.crcEncode d h gen) s =
        .next ((s.setSlot d (some out)).setRnz (decide (out.res ≠ 0))) ∧
      out.res = crcResidue s.cfg (generatorOfDegree gen n) b ∧ out.bl = b.bl + n ∧
      out.bits s.cfg.bitOrder = b.bits s.cfg.bitOrder ++ (List.range n).map (fun j => out.res.getLsbD (n - 1 - j)) ∧
      ∃ m, out.sb = max (2 * ((b.bl + 7) / 8)) 1 * 2 ^ m ∧ 4 * out.bl ≤ 3 * out.cap ∧
        (m = 0 ∨ 3 * (8 * (max (2 * ((b.bl + 7) / 8)) 1 * 2 ^ (m - 1))) < 4 * out.bl)

/-- R141, R139, R147: `crc.decode` completes when its slots and generator pass and the output is within the
limit: the output is a copy of the received bits, nothing appended, and RES and RNZ tell the residue of the
same flushed division as encode's. -/
def Obligations.DecodeCopiesAndVerifies : Prop :=
  ∀ (s : State) (d h : Handle) (gen : Word) (n : Nat) (b : Buffer), s.Inv → s.halted = false →
    s.slot h = some b → d.toNat < s.cfg.nslots → s.slot d = none →
    1 ≤ n → gen.getLsbD n = true → (∀ j, n < j → gen.getLsbD j = false) →
    max (2 * ((b.bl + 7) / 8)) 1 ≤ s.cfg.maxSlotBytes →
    ∃ out : Buffer, exec (.crcDecode d h gen) s =
        .next ((s.setSlot d (some out)).setRnz (decide (out.res ≠ 0))) ∧
      out.res = crcResidue s.cfg (generatorOfDegree gen n) b ∧ out.bl = b.bl ∧
      out.bits s.cfg.bitOrder = b.bits s.cfg.bitOrder ∧ out.sb = max (2 * ((b.bl + 7) / 8)) 1 ∧
      ∀ k, 8 * k < b.bl → out.store.read k = b.store.read k

/-- R142: a CRC command never changes its source buffer; it writes only the destination slot, which was free,
and STATUS.RNZ, or, faulting, no slot at all. -/
def Obligations.CrcWritesOnlyDestinationAndRnz : Prop :=
  ∀ (i : Instr) (s t : State) (d h : Handle), s.halted = false → isCrc i = true → source i = some h →
    destination i = some d → exec i s = .next t →
    t.slot h = s.slot h ∧ (∀ g, g ≠ d → t.slot g = s.slot g) ∧ t.result = s.result ∧
    (t.halted = true → ∀ g, t.slot g = s.slot g) ∧
    (t.halted = false → s.slot d = none ∧ d ≠ h ∧ t.faultCmd = s.faultCmd ∧
      ∀ j, j ≠ 5 → t.status.getLsbD j = s.status.getLsbD j)

/-- R143: the residue is the remainder of M(x) · x^d modulo G(x) over GF(2): of degree below d, and congruent
to it. -/
def Obligations.ResidueIsThePolynomialRemainder : Prop :=
  ∀ (c : Config) (gen : Word) (g : Generator) (b : Buffer), c.wf → checkGenerator c gen = .ok g →
    (crcResidue c g b).toNat < 2 ^ g.deg ∧
    wordPoly (crcResidue c g b) = (bitsPoly (b.bits c.bitOrder) * Polynomial.X ^ g.deg) %ₘ wordPoly gen

/-- R144 item 2: decoding a codeword that encode made, with the same generator, gives residue 0. -/
def Obligations.RoundTripHasResidueZero : Prop :=
  ∀ (s t u : State) (d e h : Handle) (gen : Word) (out : Buffer), s.Inv → s.halted = false →
    exec (.crcEncode d h gen) s = .next t → t.halted = false →
    exec (.crcDecode e d gen) t = .next u → u.halted = false → u.slot e = some out →
    out.res = 0 ∧ statusRnz u.status = false

/-- R144 item 1, 3 and 5: the codeword's length is BL + d; encoding the same message again gives the same
valid bits and residue; the empty message encodes to d zero bits with residue 0. -/
def Obligations.EncodingLengthDeterminismAndEmptyMessage : Prop :=
  ∀ (s t u : State) (d e h : Handle) (gen : Word) (g : Generator) (b x y : Buffer), s.Inv →
    s.halted = false → checkGenerator s.cfg gen = .ok g → s.slot h = some b →
    exec (.crcEncode d h gen) s = .next t → t.halted = false → t.slot d = some x →
    x.bl = b.bl + g.deg ∧
    (b.bl = 0 → x.bits s.cfg.bitOrder = List.replicate g.deg false ∧ x.res = 0) ∧
    (exec (.crcEncode e h gen) t = .next u → u.halted = false → u.slot e = some y →
      y.bits s.cfg.bitOrder = x.bits s.cfg.bitOrder ∧ y.res = x.res)

/-- R145: with a generator of two or more set bits, every single-bit corruption of a codeword, made here by
set_bit, gives a nonzero decode residue and RNZ = 1. -/
def Obligations.SingleBitFlipIsDetected : Prop :=
  ∀ (s t u v : State) (d e h : Handle) (gen index : Word) (x y : Buffer) (p q : Nat) (bit : Bool), s.Inv →
    s.halted = false → p ≠ q → gen.getLsbD p = true → gen.getLsbD q = true →
    exec (.crcEncode d h gen) s = .next t → t.halted = false → t.slot d = some x →
    (x.bits s.cfg.bitOrder)[index.toNat]? = some bit →
    exec (.setBit d index (!bit)) t = .next u → u.halted = false →
    exec (.crcDecode e d gen) u = .next v → v.halted = false → v.slot e = some y →
    y.res ≠ 0 ∧ statusRnz v.status = true

/-- R145: with a monomial generator the residue is 0 for every input, so nothing is detected. -/
def Obligations.MonomialGeneratorGivesResidueZero : Prop :=
  ∀ (c : Config) (n : Nat) (g : Generator) (b : Buffer), c.wf → n < 32 →
    checkGenerator c (1#32 <<< n) = .ok g → crcResidue c g b = 0

/-- R138: `reverse_bytes` reverses the four bytes and is an involution. -/
def Obligations.ReverseBytesIsAnInvolution : Prop :=
  (∀ w : Word, reverseBytes (reverseBytes w) = w) ∧
  (∀ w : Word, (reverseBytes w).extractLsb' 24 8 = w.extractLsb' 0 8 ∧
    (reverseBytes w).extractLsb' 16 8 = w.extractLsb' 8 8 ∧
    (reverseBytes w).extractLsb' 8 8 = w.extractLsb' 16 8 ∧
    (reverseBytes w).extractLsb' 0 8 = w.extractLsb' 24 8) ∧
  reverseBytes 0x12345678 = 0x78563412

/-- R53, R137: the host's byte order has no observable effect: a command does the same under either. -/
def Obligations.HostByteOrderHasNoEffect : Prop :=
  ∀ (i : Instr) (s : State) (big : Bool),
    exec i { s with cfg := { s.cfg with hostBigEndian := big } } =
      mapNext (fun t => { t with cfg := { t.cfg with hostBigEndian := big } }) (exec i s)

/-- R146: the trace of a completed CRC command, where the instance emits it, is its BL + d events in step
order, each the input bit, the register's top bit before the step and its value after, ending in the residue;
no rule reads it, so a command does the same whether it is emitted or not. -/
def Obligations.TraceFollowsTheEngineAndChangesNothing : Prop :=
  (∀ (i : Instr) (s : State) (on : Bool),
    exec i { s with cfg := { s.cfg with traceEvents := on } } =
      mapNext (fun t => { t with cfg := { t.cfg with traceEvents := on } }) (exec i s)) ∧
  (∀ (i : Instr) (s t : State) (h : Handle) (gen : Word) (g : Generator) (b : Buffer), s.halted = false →
    s.cfg.traceEvents = true → isCrc i = true → source i = some h → operandWords i = [gen] →
    s.slot h = some b → checkGenerator s.cfg gen = .ok g → exec i s = .next t → t.halted = false →
    (traceOf i s).length = b.bl + g.deg ∧
    (∀ (j : Nat) (ev : TraceEvent), (traceOf i s)[j]? = some ev →
      ev.index = j ∧ some ev.input = (b.bits s.cfg.bitOrder ++ List.replicate g.deg false)[j]? ∧
      ev.top = (engineRun g 0 ((b.bits s.cfg.bitOrder ++ List.replicate g.deg false).take j)).getLsbD (g.deg - 1) ∧
      ev.sr = engineRun g 0 ((b.bits s.cfg.bitOrder ++ List.replicate g.deg false).take (j + 1))) ∧
    ∃ ev, (traceOf i s).getLast? = some ev ∧ ev.sr = crcResidue s.cfg g b)

/-! ## Injector (42_burst_injector.md) -/

/-- R160 to R168: `inject_burst` completes on every allocated slot; at an offset in {0, …, X}, or 0 when
X < 0, it sets the covered bits below 8 × L to the fill and no other bit; SB, BL and RES stay, and when
X ≥ 0 the burst ends before the last content byte. Which offset is a free value (D19; log 6). -/
def Obligations.InjectBurstOverwritesTheBurst : Prop :=
  ∀ (s : State) (h : Handle) (burstBits : Word) (fill : Fill) (b : Buffer), s.Inv → s.halted = false →
    s.slot h = some b →
    ∃ (b' : Buffer) (off : Nat) (x : Int), x = (((b.bl + 7) / 8 : Nat) : Int) - (((burstBits.toNat + 7) / 8 : Nat) : Int) - 1 ∧
      exec (.injectBurst h burstBits fill) s =
        .next (if 0 ≤ x then (s.setSlot h (some b')).countDraw else s.setSlot h (some b')) ∧
      (0 ≤ x → (off : Int) ≤ x ∧ 8 * off + burstBits.toNat ≤ 8 * ((b.bl + 7) / 8 - 1)) ∧ (x < 0 → off = 0) ∧
      b'.sb = b.sb ∧ b'.bl = b.bl ∧ b'.res = b.res ∧
      ∀ j, b'.store.bitRead s.cfg.bitOrder j =
        if 8 * off ≤ j ∧ j < 8 * off + burstBits.toNat ∧ j < 8 * ((b.bl + 7) / 8) then decide (fill = .high)
        else b.store.bitRead s.cfg.bitOrder j

/-! ## Frames and whole-machine rules -/

/-- 20_memory.md R55: every byte of storage reads as before, except the bytes `storesTo` gives for the command:
the byte of the bit that `set_bit` or `push_bit` writes, the bytes of a burst below L, and the storage of the
slot a command creates or frees. That the bytes a push's growth brings in (from SB on, which R102 leaves
unspecified) read as before is the model's choice (log 7, DESIGN CHOICE). -/
def Obligations.EveryOtherStorageByteIsUnchanged : Prop :=
  ∀ (i : Instr) (s t : State), s.Inv → s.halted = false → exec i s = .next t →
    ∀ (h : Handle) (k : Nat), ¬ storesTo i s h k → t.byteAt h k = s.byteAt h k

/-- R55 to R57, R183: every register, port and slot that the command does not name is unchanged. RESULT may
change by the five commands of R33, RNZ by a CRC command, FAULT, CAUSE and FAULT_CMD by a fault only, the
slot the command names, and nothing else; the draw count only grows by one. -/
def Obligations.EveryOtherRegisterAndSlotIsUnchanged : Prop :=
  ∀ (i : Instr) (s t : State), s.halted = false → exec i s = .next t →
    t.cfg = s.cfg ∧ t.cmdPort = s.cmdPort ∧ t.dataPort = s.dataPort ∧
    (∀ h, destination i ≠ some h → source i ≠ some h → t.slot h = s.slot h) ∧
    (writesResult i = false → t.result = s.result) ∧
    (t.halted = false → t.faultCmd = s.faultCmd ∧ (isCrc i = false → t.status = s.status) ∧
      ∀ j, j ≠ 5 → t.status.getLsbD j = s.status.getLsbD j) ∧
    (t.draws = s.draws ∨ t.draws = s.draws + 1)

/-- R22: a slot becomes ALLOC only by a command that names it as destination, and FREE only by `free`. -/
def Obligations.SlotsAreAllocatedAndFreedOnlyByTheirCommands : Prop :=
  ∀ (i : Instr) (s t : State) (h : Handle), s.halted = false → exec i s = .next t →
    (s.slot h = none → (∃ b, t.slot h = some b) → destination i = some h) ∧
    ((∃ b, s.slot h = some b) → t.slot h = none → i = .free h)

/-- R23, R24, R26: of a buffer that stays, RES never changes; BL changes only by `push_bit` (+1) and
`pop_bit` (-1); SB changes only by a push's growth, to a doubling of itself; valid bits that stay change only
by `set_bit` and `inject_burst`. -/
def Obligations.BufferFieldsChangeOnlyByTheirCommands : Prop :=
  ∀ (i : Instr) (s t : State) (h : Handle) (b b' : Buffer), s.Inv → s.halted = false →
    exec i s = .next t → s.slot h = some b → t.slot h = some b' →
    b'.res = b.res ∧
    (b'.bl = b.bl ∨ ((∃ v, i = .pushBit h v) ∧ b'.bl = b.bl + 1) ∨ (i = .popBit h ∧ b'.bl + 1 = b.bl)) ∧
    (b'.sb = b.sb ∨ ((∃ v, i = .pushBit h v) ∧ ∃ k, b'.sb = b.sb * 2 ^ k)) ∧
    (∀ j, j < b.bl → j < b'.bl → (b'.bits s.cfg.bitOrder)[j]? ≠ (b.bits s.cfg.bitOrder)[j]? →
      (∃ index v, i = .setBit h index v) ∨ ∃ burst fill, i = .injectBurst h burst fill)

/-- R33: RESULT is written only by the five query commands; every other command, a faulting command included,
leaves it unchanged; each query writes a zero-extended value, so a bit is 0 or 1. -/
def Obligations.ResultIsWrittenOnlyByTheFiveQueries : Prop :=
  ∀ (i : Instr) (s t : State), s.halted = false → exec i s = .next t →
    (writesResult i = false ∨ t.halted = true → t.result = s.result) ∧
    (t.halted = false → ∀ h index, (i = .getBit h index ∨ i = .popBit h) → t.result = 0 ∨ t.result = 1) ∧
    (t.halted = false → ∀ h b, s.slot h = some b →
      (i = .getLen h → t.result = (b.bl : Word)) ∧ (i = .getCap h → t.result = (b.cap : Word)) ∧
      (i = .getResidue h → t.result = b.res))

/-- R35: each CRC command that completes writes RNZ <- (residue ≠ 0), encode as well as decode; no other
command changes it, and a faulting one leaves it; it is 0 at reset. -/
def Obligations.RnzIsWrittenOnlyByCompletedCrcCommands : Prop :=
  (∀ (i : Instr) (s t : State), s.halted = false → exec i s = .next t →
    (isCrc i = true → t.halted = false → ∃ d out, destination i = some d ∧ t.slot d = some out ∧
      statusRnz t.status = decide (out.res ≠ 0)) ∧
    (isCrc i = false ∨ t.halted = true → statusRnz t.status = statusRnz s.status)) ∧
  (∀ c : Config, statusRnz (State.resetWith c).status = false)

/-- R57, R217: the two draws are the only free values: every command but an injection and a `get_bit` at or
above BL does the same whatever draws are to come, and takes none. -/
def Obligations.TheTwoDrawsAreTheOnlyFreeValues : Prop :=
  ∀ (i : Instr) (s : State) (n : Nat), (∀ h b fill, i ≠ .injectBurst h b fill) →
    (∀ h index b, i = .getBit h index → s.slot h = some b → index.toNat < b.bl ∨ b.cap ≤ index.toNat) →
    exec i { s with draws := n } = mapNext (fun t => { t with draws := n }) (exec i s)

/-- R28, R25: storage bits at index ≥ BL are never observable: two states that look the same to the host
take steps to states that do. -/
def Obligations.GarbageBitsAreNeverObservable : Prop :=
  ∀ s s' t t' : State, s.Inv → s'.Inv → s.SameView s' → step s = .next t → step s' = .next t' →
    t.SameView t' ∧ ∀ r : HostReg, hostRead r t = hostRead r t'

/-- R82: running the expansion of `from_text` on an idle block whose slot is free gives a buffer with exactly
the text's bits, residue 0, if storage for it is within the limit. -/
def Obligations.FromTextBuildsTheBits : Prop :=
  ∀ (s : State) (d : Handle) (bits : List Bool) (k : Nat), s.Inv → s.halted = false → s.cmdPort = [] →
    s.dataPort = [] → d.toNat < s.cfg.nslots → s.slot d = none →
    4 * bits.length ≤ 3 * (8 * 2 ^ k) → 2 ^ k ≤ s.cfg.maxSlotBytes →
    ∃ (program : List Instr) (b : Buffer), fromText d (bits.map fun v => if v then '1' else '0') = some program ∧
      hostRun (program.map .command) s = .next (s.setSlot d (some b)) ∧ b.bits s.cfg.bitOrder = bits ∧
      b.bl = bits.length ∧ b.res = 0

/-- R219, R184: a block that has faulted has ended its run, failed, whatever the host submits after it, and every
slot and register stays; a run of one illegal word is such a run; a run of one command has ended, successfully
exactly when the command did not fault. Two things are the model's reading: that an illegal word faults at
once, also where its OP takes an operand word (R78; log 3, DEDUCED), and that a halted block has ended its run
whatever stands on its ports (log 20, DEDUCED). -/
def Obligations.RunThatFaultsHasEndedAndFailed : Prop :=
  (∀ (s : State) (xs : List HostInput), s.halted = true → ∃ t, hostRun xs s = .next t ∧
    t = { s with cmdPort := t.cmdPort, dataPort := t.dataPort } ∧ t.runEnded = true ∧ t.runSucceeded = false) ∧
  (∀ (s : State) (w : Word) (why : Illegal), s.halted = false → s.cmdPort = [] →
    decodeWord w 0 [] = .error why →
    hostRun [.word w] s = .next (takeFault .illegalCmd w s) ∧
    (takeFault .illegalCmd w s).runEnded = true ∧ (takeFault .illegalCmd w s).runSucceeded = false) ∧
  (∀ (s t : State) (i : Instr), s.halted = false → s.cmdPort = [] → s.dataPort = [] → i.wellFormed = true →
    exec i s = .next t → ∃ u, hostRun [.command i] s = .next u ∧
      u = { t with cmdPort := u.cmdPort, dataPort := u.dataPort } ∧ u.runEnded = true ∧
      u.runSucceeded = !t.halted)
end

