-- ==== Sys2Proof/Laws/Config.lean ====
section
/-! SUPPORT. What a legal configuration fixes (00_scope.md R6), and what the parameters come to there. -/

namespace Sys2Proof

variable {c : Config} (hc : c.wf)
include hc

theorem Config.genWidth_eq : c.genWidth = 32 := hc.1.1
theorem Config.maxDegree_eq : c.maxDegree = 31 := hc.1.2.1
theorem Config.bitOrder_eq : c.bitOrder = .msbFirst := hc.1.2.2.1
theorem Config.growNum_eq : c.growNum = 3 := hc.1.2.2.2.1
theorem Config.growDen_eq : c.growDen = 4 := hc.1.2.2.2.2.1
theorem Config.fromBytesFactor_eq : c.fromBytesFactor = 2 := hc.1.2.2.2.2.2
theorem Config.nslots_pos : 1 ≤ c.nslots := hc.2.1
theorem Config.maxSlotBytes_le : c.maxSlotBytes ≤ 2 ^ 28 := hc.2.2.2.2

end Sys2Proof

namespace Sys2Proof.Machine

variable {c : Config} (hc : c.wf)
include hc

/-- Growth is needed exactly above 3/4 of the capacity (40_bitbuffer.md R102, D13). -/
theorem overFill_iff {sb nbl : Nat} : overFill c sb nbl = true ↔ 24 * sb < 4 * nbl := by
  unfold overFill
  rw [Config.growNum_eq hc, Config.growDen_eq hc, decide_eq_true_iff]
  omega

/-- `from_bytes` allocates max(2n, 1) bytes (40_bitbuffer.md R103, D12). -/
theorem fromBytesSize_eq (n : Nat) : fromBytesSize c n = max (2 * n) 1 := by
  unfold fromBytesSize; rw [Config.fromBytesFactor_eq hc]

/-- The generator is the whole operand word (41_crc_engine.md R130). -/
theorem generatorOperand_eq (imm : Word) : generatorOperand c imm = imm := by
  unfold generatorOperand; rw [Config.genWidth_eq hc]; simp

/-- The degree is the highest of all 32 bits (R130). -/
theorem checkGenerator_eq (imm : Word) : checkGenerator c imm = generatorOfTop imm (highestSet imm 32) := by
  simp only [checkGenerator, generatorOperand_eq hc, Config.maxDegree_eq hc]

end Sys2Proof.Machine
end

