-- ==== Sys2Proof/Laws/Flags.lean ====
section
/-! SUPPORT. The fields of STATUS after each write of it (10_state.md R34, R35, 60_exceptions.md R183). -/

namespace Sys2Proof.Machine

theorem getLsbD_statusSetRnz (w : Word) (v : Bool) (i : Nat) :
    (statusSetRnz w v).getLsbD i = if i = 5 then v else w.getLsbD i := by
  unfold statusSetRnz
  by_cases hi : i < 32
  · interval_cases i <;> cases v <;> simp
  · have h5 : i ≠ 5 := by omega
    rw [if_neg h5, BitVec.getLsbD_of_ge _ _ (Nat.le_of_not_lt hi), BitVec.getLsbD_of_ge _ _ (Nat.le_of_not_lt hi)]

theorem getLsbD_statusEnterFault (w : Word) (c : Cause) (i : Nat) :
    (statusEnterFault w c).getLsbD i =
      if i = 0 then true else if i < 5 then (causeCode c).getLsbD (i - 1) else w.getLsbD i := by
  unfold statusEnterFault
  by_cases hi : i < 32
  · interval_cases i <;> cases c <;> simp [causeCode]
  · rw [if_neg (by omega), if_neg (by omega), BitVec.getLsbD_of_ge _ _ (Nat.le_of_not_lt hi),
      BitVec.getLsbD_of_ge _ _ (Nat.le_of_not_lt hi)]

/-! ## After `RNZ <- v` -/

@[simp] theorem statusRnz_setRnz (w : Word) (v : Bool) : statusRnz (statusSetRnz w v) = v := by
  unfold statusRnz; rw [getLsbD_statusSetRnz, if_pos rfl]

@[simp] theorem statusFault_setRnz (w : Word) (v : Bool) : statusFault (statusSetRnz w v) = statusFault w := by
  unfold statusFault; rw [getLsbD_statusSetRnz, if_neg (by decide)]

@[simp] theorem statusCause_setRnz (w : Word) (v : Bool) : statusCause (statusSetRnz w v) = statusCause w := by
  unfold statusCause
  apply BitVec.eq_of_getLsbD_eq
  intro i hi
  have h5 : 1 + i ≠ 5 := by omega
  simp [BitVec.getLsbD_extractLsb', getLsbD_statusSetRnz, h5]

@[simp] theorem statusReserved_setRnz (w : Word) (v : Bool) :
    statusReserved (statusSetRnz w v) = statusReserved w := by
  unfold statusReserved
  apply BitVec.eq_of_getLsbD_eq
  intro i hi
  have h5 : 6 + i ≠ 5 := by omega
  simp [BitVec.getLsbD_extractLsb', getLsbD_statusSetRnz, h5]

/-! ## After fault entry -/

@[simp] theorem statusFault_enterFault (w : Word) (c : Cause) : statusFault (statusEnterFault w c) = true := by
  unfold statusFault; rw [getLsbD_statusEnterFault, if_pos rfl]

@[simp] theorem statusRnz_enterFault (w : Word) (c : Cause) :
    statusRnz (statusEnterFault w c) = statusRnz w := by
  unfold statusRnz; rw [getLsbD_statusEnterFault, if_neg (by decide), if_neg (by decide)]

@[simp] theorem statusCause_enterFault (w : Word) (c : Cause) :
    statusCause (statusEnterFault w c) = causeCode c := by
  unfold statusCause
  apply BitVec.eq_of_getLsbD_eq
  intro i hi
  have h1 : 1 + i < 5 := by omega
  simp [getLsbD_statusEnterFault, hi, h1]

@[simp] theorem statusReserved_enterFault (w : Word) (c : Cause) :
    statusReserved (statusEnterFault w c) = statusReserved w := by
  unfold statusReserved
  apply BitVec.eq_of_getLsbD_eq
  intro i hi
  have h1 : ¬ 6 + i < 5 := by omega
  simp [BitVec.getLsbD_extractLsb', getLsbD_statusEnterFault, h1]

/-- No cause has the code 0, NONE (R181). -/
theorem causeCode_ne_zero (c : Cause) : causeCode c ≠ 0 := by cases c <;> decide

/-- Each cause has a code of its own (R181). -/
theorem causeCode_injective {c d : Cause} (h : causeCode c = causeCode d) : c = d := by
  cases c <;> cases d <;> first | rfl | exact absurd h (by decide)

@[simp] theorem halted_takeFault (c : Cause) (w : Word) (s : State) : (takeFault c w s).halted = true := by
  simp [State.halted, takeFault]

@[simp] theorem halted_setSlot (s : State) (h : Handle) (o : Option Buffer) :
    (s.setSlot h o).halted = s.halted := rfl

@[simp] theorem halted_setResult (s : State) (v : Word) : (s.setResult v).halted = s.halted := rfl

@[simp] theorem halted_countDraw (s : State) : s.countDraw.halted = s.halted := rfl

@[simp] theorem halted_setRnz (s : State) (v : Bool) : (s.setRnz v).halted = s.halted := by
  simp [State.halted, State.setRnz]

end Sys2Proof.Machine
end

