-- ==== Sys2Proof/Laws/Memory.lean ====
section
/-! SUPPORT. The laws of storage: what a byte or bit reads as after each operation, and that every operation
keeps the canonical form. -/

namespace Sys2Proof.Machine

/-! ## The canonical form -/

theorem Memory.wfFrom_mono {m : Memory} {lo lo' : Nat} (hle : lo' ≤ lo) (h : Memory.wfFrom lo m = true) :
    Memory.wfFrom lo' m = true := by
  cases m with
  | nil => rfl
  | cons c m =>
    obtain ⟨k, v⟩ := c
    simp only [Memory.wfFrom, Bool.and_eq_true, decide_eq_true_eq] at h ⊢
    exact ⟨⟨by omega, h.1.2⟩, h.2⟩

/-- Below the first index of the list every byte is the unlisted one. -/
theorem Memory.read_below {m : Memory} {lo k : Nat} (h : Memory.wfFrom lo m = true) (hk : k < lo) :
    Memory.read m k = Memory.unlisted := by
  induction m generalizing lo with
  | nil => rfl
  | cons c m ih =>
    obtain ⟨j, v⟩ := c
    simp only [Memory.wfFrom, Bool.and_eq_true, decide_eq_true_eq] at h
    have hkj : k ≠ j := by omega
    simpa [Memory.read, hkj] using ih h.2 (by omega)

theorem Memory.wfFrom_consCell {m : Memory} {lo k : Nat} (v : Byte) (hlo : lo ≤ k)
    (h : Memory.wfFrom (k + 1) m = true) : Memory.wfFrom lo (Memory.consCell k v m) = true := by
  unfold Memory.consCell
  split
  · exact Memory.wfFrom_mono (by omega) h
  · next hv => simp [Memory.wfFrom, hlo, hv, h]

theorem Memory.read_consCell {m : Memory} {k : Nat} (v : Byte) (i : Nat)
    (h : Memory.wfFrom (k + 1) m = true) :
    Memory.read (Memory.consCell k v m) i = if i = k then v else Memory.read m i := by
  unfold Memory.consCell
  by_cases hv : v = Memory.unlisted
  · rw [if_pos hv]
    by_cases hi : i = k
    · rw [if_pos hi, hi, hv]; exact Memory.read_below h (by omega)
    · rw [if_neg hi]
  · rw [if_neg hv]; rfl

/-! ## Writing a byte -/

theorem Memory.wfFrom_write {m : Memory} {lo k : Nat} (v : Byte) (hlo : lo ≤ k)
    (h : Memory.wfFrom lo m = true) : Memory.wfFrom lo (Memory.write m k v) = true := by
  induction m generalizing lo with
  | nil => exact Memory.wfFrom_consCell v hlo rfl
  | cons c m ih =>
    obtain ⟨j, x⟩ := c
    simp only [Memory.wfFrom, Bool.and_eq_true, decide_eq_true_eq] at h
    unfold Memory.write
    split
    · next hkj =>
      refine Memory.wfFrom_consCell v hlo ?_
      simp only [Memory.wfFrom, Bool.and_eq_true, decide_eq_true_eq]
      exact ⟨⟨by omega, h.1.2⟩, h.2⟩
    · split
      · next hkj => subst hkj; exact Memory.wfFrom_consCell v hlo h.2
      · next h1 h2 =>
        simp only [Memory.wfFrom, Bool.and_eq_true, decide_eq_true_eq]
        exact ⟨⟨h.1.1, h.1.2⟩, ih (by omega) h.2⟩

/-- A write keeps the canonical form. -/
theorem Memory.wf_write {m : Memory} (k : Nat) (v : Byte) (h : m.wf = true) : (m.write k v).wf = true :=
  Memory.wfFrom_write v (Nat.zero_le k) h

theorem Memory.read_write_from {m : Memory} {lo k : Nat} (v : Byte) (i : Nat)
    (h : Memory.wfFrom lo m = true) :
    Memory.read (Memory.write m k v) i = if i = k then v else Memory.read m i := by
  induction m generalizing lo with
  | nil => exact Memory.read_consCell v i rfl
  | cons c m ih =>
    obtain ⟨j, x⟩ := c
    have h' := h
    simp only [Memory.wfFrom, Bool.and_eq_true, decide_eq_true_eq] at h
    unfold Memory.write
    split
    · next hkj =>
      exact Memory.read_consCell v i (by
        simp only [Memory.wfFrom, Bool.and_eq_true, decide_eq_true_eq]
        exact ⟨⟨by omega, h.1.2⟩, h.2⟩)
    · split
      · next hkj =>
        subst hkj
        rw [Memory.read_consCell v i h.2]
        by_cases hi : i = k <;> simp [Memory.read, hi]
      · next h1 h2 =>
        simp only [Memory.read]
        rw [ih h.2]
        by_cases hi : i = j
        · subst hi; simp [show ¬ i = k from fun e => h2 e.symm]
        · simp [hi]

/-- Read after write, in canonical storage: the byte written reads as `v`, every other byte as before. -/
theorem Memory.read_write {m : Memory} (k : Nat) (v : Byte) (i : Nat) (h : m.wf = true) :
    (m.write k v).read i = if i = k then v else m.read i :=
  Memory.read_write_from v i h

theorem Memory.mem_consCell {m : Memory} {k : Nat} {v : Byte} {c : Host.Cell}
    (hc : c ∈ Memory.consCell k v m) : c.1 = k ∨ c ∈ m := by
  unfold Memory.consCell at hc
  split at hc
  · exact .inr hc
  · rcases List.mem_cons.1 hc with rfl | hc
    · exact .inl rfl
    · exact .inr hc

/-- A write lists no index but its own and those listed before. -/
theorem Memory.mem_write {m : Memory} {k : Nat} {v : Byte} {c : Host.Cell}
    (hc : c ∈ Memory.write m k v) : c.1 = k ∨ c ∈ m := by
  induction m with
  | nil => simpa using Memory.mem_consCell hc
  | cons d m ih =>
    obtain ⟨j, x⟩ := d
    unfold Memory.write at hc
    split at hc
    · exact Memory.mem_consCell hc
    · split at hc
      · exact (Memory.mem_consCell hc).imp id (List.mem_cons_of_mem _)
      · rcases List.mem_cons.1 hc with rfl | hc
        · exact .inr (List.mem_cons_self ..)
        · exact (ih hc).imp id (List.mem_cons_of_mem _)

/-! ## Fresh storage from bytes -/

theorem Memory.wfFrom_ofBytes (k : Nat) (data : List Byte) :
    Memory.wfFrom k (Memory.ofBytes k data) = true := by
  induction data generalizing k with
  | nil => rfl
  | cons v vs ih => exact Memory.wfFrom_consCell v (Nat.le_refl k) (ih (k + 1))

theorem Memory.wf_ofBytes (data : List Byte) : (Memory.ofBytes 0 data).wf = true :=
  Memory.wfFrom_ofBytes 0 data

/-- Byte `i` of storage made from `data` at index `k` is `data[i - k]`, and unlisted outside (R103, R52). -/
theorem Memory.read_ofBytes (k : Nat) (data : List Byte) (i : Nat) :
    Memory.read (Memory.ofBytes k data) i =
      if k ≤ i then data.getD (i - k) Memory.unlisted else Memory.unlisted := by
  induction data generalizing k with
  | nil => simp [Memory.ofBytes, Memory.read]
  | cons v vs ih =>
    rw [Memory.ofBytes, Memory.read_consCell v i (Memory.wfFrom_ofBytes (k + 1) vs), ih (k + 1)]
    by_cases hi : i = k
    · subst hi; simp
    · by_cases hlt : k ≤ i
      · have h1 : k + 1 ≤ i := by omega
        have h2 : i - k = (i - (k + 1)) + 1 := by omega
        rw [if_neg hi, if_pos h1, if_pos hlt, h2, List.getD_cons_succ]
      · rw [if_neg hi, if_neg (by omega), if_neg hlt]

theorem Memory.mem_ofBytes {k : Nat} {data : List Byte} {c : Host.Cell}
    (hc : c ∈ Memory.ofBytes k data) : k ≤ c.1 ∧ c.1 < k + data.length := by
  induction data generalizing k with
  | nil => simp [Memory.ofBytes] at hc
  | cons v vs ih =>
    rcases Memory.mem_consCell hc with h | h
    · simp [h]
    · have := ih h
      simp only [List.length_cons]
      omega

/-! ## The first bytes of storage -/

theorem Memory.wfFrom_firstBytes {m : Memory} {lo : Nat} (n : Nat) (h : Memory.wfFrom lo m = true) :
    Memory.wfFrom lo (m.firstBytes n) = true := by
  induction m generalizing lo with
  | nil => rfl
  | cons c m ih =>
    obtain ⟨j, x⟩ := c
    simp only [Memory.wfFrom, Bool.and_eq_true, decide_eq_true_eq] at h
    have ih' := ih h.2
    simp only [Memory.firstBytes] at ih' ⊢
    by_cases hj : j < n
    · simp only [List.filter, hj, decide_true, Memory.wfFrom, Bool.and_eq_true, decide_eq_true_eq]
      exact ⟨h.1, ih'⟩
    · simp only [List.filter, hj, decide_false]
      exact Memory.wfFrom_mono (by omega) ih'

theorem Memory.wf_firstBytes {m : Memory} (n : Nat) (h : m.wf = true) : (m.firstBytes n).wf = true :=
  Memory.wfFrom_firstBytes n h

/-- The copy reads as the original below `n` (R139). -/
theorem Memory.read_firstBytes (m : Memory) (n i : Nat) :
    (m.firstBytes n).read i = if i < n then m.read i else Memory.unlisted := by
  induction m with
  | nil => simp [Memory.firstBytes, Memory.read]
  | cons c m ih =>
    obtain ⟨j, x⟩ := c
    simp only [Memory.firstBytes] at ih ⊢
    by_cases hj : j < n
    · simp only [List.filter, hj, decide_true, Memory.read, ih]
      by_cases hi : i = j
      · subst hi; simp [hj]
      · simp [hi]
    · simp only [List.filter, hj, decide_false, ih, Memory.read]
      by_cases hi : i = j
      · subst hi; simp [hj]
      · simp [hi]

theorem Memory.mem_firstBytes {m : Memory} {n : Nat} {c : Host.Cell} (hc : c ∈ m.firstBytes n) :
    c ∈ m ∧ c.1 < n := by
  simpa [Memory.firstBytes] using hc

/-! ## Bits (20_memory.md R51) -/

theorem bitPlace_lt (o : BitOrder) (i : Nat) : bitPlace o i < 8 := by
  cases o <;> simp only [bitPlace] <;> omega

/-- Two bits of one byte have one place only if they are one bit. -/
theorem bitPlace_inj {o : BitOrder} {i j : Nat} (hq : i / 8 = j / 8)
    (h : bitPlace o i = bitPlace o j) : i = j := by
  cases o <;> simp only [bitPlace] at h <;> omega

theorem getLsbD_byteSetBit (x : Byte) {p : Nat} (v : Bool) (q : Nat) (hp : p < 8) :
    (byteSetBit x p v).getLsbD q = if q = p then v else x.getLsbD q := by
  unfold byteSetBit
  by_cases hq : q < 8
  · interval_cases p <;> interval_cases q <;> cases v <;> simp
  · have h1 : q ≠ p := by omega
    simp [h1, BitVec.getLsbD_of_ge _ _ (Nat.le_of_not_lt hq)]

/-- `BitRead` after `BitWrite`: the bit written reads as `v`, every other bit as before. -/
theorem Memory.bitRead_bitWrite {m : Memory} (o : BitOrder) (i : Nat) (v : Bool) (j : Nat) (h : m.wf = true) :
    (m.bitWrite o i v).bitRead o j = if j = i then v else m.bitRead o j := by
  unfold Memory.bitWrite Memory.bitRead
  rw [Memory.read_write _ _ _ h]
  by_cases hq : j / 8 = i / 8
  · rw [if_pos hq, getLsbD_byteSetBit _ _ _ (bitPlace_lt _ _), hq]
    by_cases hj : j = i
    · simp [hj]
    · have hne : bitPlace o j ≠ bitPlace o i := fun e => hj (bitPlace_inj hq e)
      simp [hj, hne]
  · have hj : j ≠ i := fun e => hq (by rw [e])
    simp [hq, hj]

theorem Memory.wf_bitWrite {m : Memory} (o : BitOrder) (i : Nat) (v : Bool) (h : m.wf = true) :
    (m.bitWrite o i v).wf = true :=
  Memory.wf_write _ _ h

/-- A bit write changes the one byte that holds the bit. -/
theorem Memory.read_bitWrite {m : Memory} (o : BitOrder) (i : Nat) (v : Bool) (k : Nat) (hk : k ≠ i / 8)
    (h : m.wf = true) : (m.bitWrite o i v).read k = m.read k := by
  unfold Memory.bitWrite
  rw [Memory.read_write _ _ _ h, if_neg hk]

theorem Memory.mem_bitWrite {m : Memory} {o : BitOrder} {i : Nat} {v : Bool} {c : Host.Cell}
    (hc : c ∈ m.bitWrite o i v) : c.1 = i / 8 ∨ c ∈ m :=
  Memory.mem_write hc

/-- Bits below 8 × n of a copy of the first `n` bytes are the original's. -/
theorem Memory.bitRead_firstBytes (o : BitOrder) (m : Memory) {n i : Nat} (hi : i < 8 * n) :
    (m.firstBytes n).bitRead o i = m.bitRead o i := by
  unfold Memory.bitRead
  rw [Memory.read_firstBytes, if_pos (by omega)]

/-- Bit 8k + j of storage made from bytes is, at R6's bit order, bit 7 - j of byte k (R103, R52). -/
theorem Memory.bitRead_ofBytes (data : List Byte) (i : Nat) :
    (Memory.ofBytes 0 data).bitRead .msbFirst i = (data.getD (i / 8) Memory.unlisted).getLsbD (7 - i % 8) := by
  simp [Memory.bitRead, Memory.read_ofBytes, bitPlace]

/-! ## The valid bits of a buffer (10_state.md R25) -/

@[simp] theorem Buffer.length_bits (o : BitOrder) (b : Buffer) : (b.bits o).length = b.bl := by simp [Buffer.bits]

theorem Buffer.getElem_bits (o : BitOrder) (b : Buffer) (i : Nat) (hi : i < (b.bits o).length) :
    (b.bits o)[i] = b.store.bitRead o i := by simp [Buffer.bits]

@[simp] theorem Buffer.bits_sb (o : BitOrder) (b : Buffer) (n : Nat) : ({ b with sb := n } : Buffer).bits o = b.bits o := rfl

@[simp] theorem Buffer.bits_res (o : BitOrder) (b : Buffer) (r : Word) : ({ b with res := r } : Buffer).bits o = b.bits o := rfl

/-- Writing at BL and counting one more bit appends the bit. -/
theorem Buffer.bits_append {b : Buffer} (o : BitOrder) (v : Bool) (n : Nat) (h : b.store.wf = true) :
    ({ b with sb := n, store := b.store.bitWrite o b.bl v, bl := b.bl + 1 } : Buffer).bits o =
      b.bits o ++ [v] := by
  simp only [Buffer.bits, List.range_succ, List.map_append, List.map_cons, List.map_nil]
  congr 1
  · apply List.map_congr_left
    intro i hi
    have hne : i ≠ b.bl := by have := List.mem_range.1 hi; omega
    rw [Memory.bitRead_bitWrite _ _ _ _ h, if_neg hne]
  · rw [Memory.bitRead_bitWrite _ _ _ _ h, if_pos rfl]

end Sys2Proof.Machine
end

