-- ==== Sys2Proof/Laws/Ops.lean ====
section
/-! SUPPORT. For each shared operation, what it can do: the checks, allocation, growth, pushing, the
generator, the output copy, and how a command ends. -/

namespace Sys2Proof.Machine

/-! ## Slot checks (40_bitbuffer.md R100) -/

theorem checkS_ok {s : State} {h : Handle} {b : Buffer} :
    checkS s h = .ok b ↔ h.toNat < s.cfg.nslots ∧ s.slot h = some b := by
  unfold checkS
  split
  · next hn => simp; omega
  · next hn =>
    cases hs : s.slot h with
    | none => simp
    | some a => simp [Nat.lt_of_not_le hn]

theorem checkS_error {s : State} {h : Handle} {c : Cause} :
    checkS s h = .error c ↔ c = .badHandle ∧ (s.cfg.nslots ≤ h.toNat ∨ s.slot h = none) := by
  unfold checkS
  split
  · next hn => simp [hn, eq_comm]
  · next hn =>
    cases hs : s.slot h with
    | none => simp [eq_comm]
    | some a => simp [hn]

theorem checkD_ok {s : State} {h : Handle} {u : Unit} :
    checkD s h = .ok u ↔ h.toNat < s.cfg.nslots ∧ s.slot h = none := by
  unfold checkD
  split
  · next hn => simp; omega
  · next hn =>
    cases hs : s.slot h with
    | none => simp [Nat.lt_of_not_le hn]
    | some a => simp

theorem checkD_error {s : State} {h : Handle} {c : Cause} :
    checkD s h = .error c ↔ (c = .badHandle ∧ s.cfg.nslots ≤ h.toNat) ∨
      (c = .slotInUse ∧ h.toNat < s.cfg.nslots ∧ ∃ b, s.slot h = some b) := by
  unfold checkD
  split
  · next hn => simp [hn, Nat.not_lt.2 hn, eq_comm]
  · next hn =>
    cases hs : s.slot h with
    | none => simp [hn]
    | some a => simp [hn, Nat.lt_of_not_le hn, eq_comm]

/-! ## Allocation and growth (R101, R102) -/

theorem alloc_ok {c : Config} {n : Nat} {m : Memory} :
    alloc c n = .ok m ↔ n ≤ c.maxSlotBytes ∧ m = [] := by
  unfold alloc
  split
  · next h => simp; omega
  · next h => simp [Nat.le_of_not_lt h, eq_comm]

theorem alloc_error {c : Config} {n : Nat} {e : Cause} :
    alloc c n = .error e ↔ c.maxSlotBytes < n ∧ e = .allocFail := by
  unfold alloc
  split
  · next h => simp [h, eq_comm]
  · next h => simp [h]

/-- Growth that ends gives a doubling of the size, just large enough, and one it grew to within the limit. -/
theorem growBytes_ok {c : Config} (hc : c.wf) {nbl fuel sb sb' : Nat} (h : growBytes c nbl fuel sb = .ok sb') :
    4 * nbl ≤ 24 * sb' ∧ (sb' = sb ∨ sb' ≤ c.maxSlotBytes) ∧
      ∃ k, sb' = sb * 2 ^ k ∧ (k = 0 ∨ 24 * (sb * 2 ^ (k - 1)) < 4 * nbl) := by
  induction fuel generalizing sb with
  | zero =>
    unfold growBytes at h
    split at h
    · cases h
    · next hf =>
      cases h
      rw [overFill_iff hc] at hf
      exact ⟨by omega, .inl rfl, 0, by simp, .inl rfl⟩
  | succ fuel ih =>
    unfold growBytes at h
    split at h
    · next hf =>
      split at h
      · cases h
      · next hm =>
        obtain ⟨h1, h2, k, h3, h4⟩ := ih h
        rw [overFill_iff hc] at hf
        refine ⟨h1, .inr (by omega), k + 1, by rw [h3, Nat.pow_succ]; ring, .inr ?_⟩
        rcases h4 with rfl | h4
        · simpa using hf
        · cases k with
          | zero => simpa using hf
          | succ j =>
            have : sb * 2 ^ (j + 1 + 1 - 1) = 2 * sb * 2 ^ (j + 1 - 1) := by
              simp only [Nat.add_sub_cancel, Nat.pow_succ]; ring
            rw [this]; exact h4
    · next hf =>
      cases h
      rw [overFill_iff hc] at hf
      exact ⟨by omega, .inl rfl, 0, by simp, .inl rfl⟩

theorem growBytes_error {c : Config} {nbl fuel sb : Nat} {e : Cause}
    (h : growBytes c nbl fuel sb = .error e) : e = .allocFail := by
  induction fuel generalizing sb with
  | zero =>
    unfold growBytes at h
    split at h
    · cases h; rfl
    · cases h
  | succ fuel ih =>
    unfold growBytes at h
    split at h
    · split at h
      · cases h; rfl
      · exact ih h
    · cases h

/-- Growth ends when some doubling of the size is large enough and within the limit. -/
theorem growBytes_ends {c : Config} (hc : c.wf) {nbl : Nat} (k : Nat) {fuel sb : Nat} (hpos : 1 ≤ sb)
    (hfuel : 4 * nbl ≤ 24 * (sb * 2 ^ fuel)) (hfit : 4 * nbl ≤ 24 * (sb * 2 ^ k))
    (hmax : sb * 2 ^ k ≤ c.maxSlotBytes) : ∃ sb', growBytes c nbl fuel sb = .ok sb' := by
  induction fuel generalizing sb k with
  | zero =>
    unfold growBytes
    have hf : ¬ overFill c sb nbl = true := by
      rw [overFill_iff hc]
      simp only [Nat.pow_zero, Nat.mul_one] at hfuel
      omega
    rw [if_neg hf]
    exact ⟨sb, rfl⟩
  | succ fuel ih =>
    unfold growBytes
    by_cases hf : overFill c sb nbl = true
    · rw [if_pos hf]
      rw [overFill_iff hc] at hf
      cases k with
      | zero => simp only [Nat.pow_zero, Nat.mul_one] at hfit; omega
      | succ k =>
        have e1 : sb * 2 ^ (k + 1) = 2 * sb * 2 ^ k := by rw [Nat.pow_succ]; ring
        have e2 : sb * 2 ^ (fuel + 1) = 2 * sb * 2 ^ fuel := by rw [Nat.pow_succ]; ring
        have hle : 2 * sb ≤ 2 * sb * 2 ^ k := Nat.le_mul_of_pos_right _ (Nat.two_pow_pos k)
        rw [e1] at hfit hmax
        rw [e2] at hfuel
        simp only [if_neg (show ¬ c.maxSlotBytes < 2 * sb by omega)]
        exact ih k (by omega) hfuel hfit hmax
    · rw [if_neg hf]
      exact ⟨sb, rfl⟩

/-- The fuel of `grow` is enough from any size of at least one byte. -/
theorem grow_fuel {nbl sb : Nat} (hpos : 1 ≤ sb) : 4 * nbl ≤ 24 * (sb * 2 ^ nbl) := by
  have h1 : nbl < 2 ^ nbl := Nat.lt_two_pow_self
  have h2 : 2 ^ nbl ≤ sb * 2 ^ nbl := Nat.le_mul_of_pos_left _ hpos
  omega

/-! ## Pushing (R107, R140) -/

theorem pushBuffer_ok {c : Config} {b b' : Buffer} {v : Bool} :
    pushBuffer c b v = .ok b' ↔ ∃ sb', growBytes c (b.bl + 1) (b.bl + 1) b.sb = .ok sb' ∧
      b' = { b with sb := sb', store := b.store.bitWrite c.bitOrder b.bl v, bl := b.bl + 1 } := by
  unfold pushBuffer grow
  cases growBytes c (b.bl + 1) (b.bl + 1) b.sb with
  | error e => simp [bind, Except.bind]
  | ok sb' => simp [bind, Except.bind, pure, Except.pure, eq_comm]

theorem pushBuffer_error {c : Config} {b : Buffer} {v : Bool} {e : Cause}
    (h : pushBuffer c b v = .error e) :
    e = .allocFail ∧ growBytes c (b.bl + 1) (b.bl + 1) b.sb = .error .allocFail := by
  unfold pushBuffer grow at h
  cases hg : growBytes c (b.bl + 1) (b.bl + 1) b.sb with
  | error e' =>
    have := growBytes_error hg
    subst this
    simp [hg, bind, Except.bind] at h
    exact ⟨h.symm, rfl⟩
  | ok sb' => simp [hg, bind, Except.bind, pure, Except.pure] at h

/-- Every push of a sequence: the bits are appended, the size is the least doubling that holds them at 3/4
fill, and the residue is kept. -/
theorem pushBits_ok {c : Config} (hc : c.wf) {b b' : Buffer} {vs : List Bool} (hwf : b.store.wf = true)
    (h : pushBits c b vs = .ok b') :
    b'.bits c.bitOrder = b.bits c.bitOrder ++ vs ∧ b'.bl = b.bl + vs.length ∧ b'.res = b.res ∧ b'.store.wf = true ∧
      (b'.sb = b.sb ∨ b'.sb ≤ c.maxSlotBytes) ∧ (vs ≠ [] → 4 * b'.bl ≤ 24 * b'.sb) ∧
      ∃ k, b'.sb = b.sb * 2 ^ k ∧ (k = 0 ∨ 24 * (b.sb * 2 ^ (k - 1)) < 4 * b'.bl) := by
  induction vs generalizing b with
  | nil =>
    cases h
    exact ⟨by simp, rfl, rfl, hwf, .inl rfl, fun h => absurd rfl h, 0, by simp, .inl rfl⟩
  | cons v vs ih =>
    cases hp : pushBuffer c b v with
    | error e => simp [pushBits, hp, bind, Except.bind] at h
    | ok b1 =>
      simp only [pushBits, hp, bind, Except.bind] at h
      obtain ⟨sb1, hg, rfl⟩ := pushBuffer_ok.1 hp
      obtain ⟨hfit, hmax, k, hk, hmin⟩ := growBytes_ok hc hg
      obtain ⟨e1, e2, e3, e4, e5, e6, j, ej, emin⟩ := ih (Memory.wf_bitWrite _ _ _ hwf) h
      simp only at e2 e3 e5 ej emin
      refine ⟨?_, ?_, e3, e4, ?_, ?_, k + j, ?_, ?_⟩
      · rw [e1, Buffer.bits_append _ v sb1 hwf]; simp
      · rw [e2]; simp only [List.length_cons]; omega
      · rcases e5 with e5 | e5
        · rcases hmax with hmax | hmax
          · exact .inl (by rw [e5, hmax])
          · exact .inr (by rw [e5]; exact hmax)
        · exact .inr e5
      · intro _
        cases vs with
        | nil => simp [pushBits] at h; subst h; exact hfit
        | cons u us => exact e6 (by simp)
      · rw [ej, hk, Nat.pow_add]; ring
      · rcases emin with rfl | emin
        · rcases hmin with rfl | hmin
          · exact .inl rfl
          · exact .inr (by simp only [Nat.add_zero]; omega)
        · cases j with
          | zero =>
            rcases hmin with rfl | hmin
            · exact .inl rfl
            · exact .inr (by simp only [Nat.add_zero]; omega)
          | succ j =>
            right
            have : b.sb * 2 ^ (k + (j + 1) - 1) = sb1 * 2 ^ (j + 1 - 1) := by
              rw [hk, show k + (j + 1) - 1 = k + j by omega, Nat.pow_add]; simp; ring
            rw [this]; exact emin

theorem pushBits_error {c : Config} {b : Buffer} {vs : List Bool} {e : Cause}
    (h : pushBits c b vs = .error e) : e = .allocFail := by
  induction vs generalizing b with
  | nil => cases h
  | cons v vs ih =>
    cases hp : pushBuffer c b v with
    | error e' =>
      simp only [pushBits, hp, bind, Except.bind] at h
      cases h
      exact (pushBuffer_error hp).1
    | ok b1 =>
      simp only [pushBits, hp, bind, Except.bind] at h
      exact ih h

/-- The pushes end when some doubling of the size holds all the bits at 3/4 fill within the limit. -/
theorem pushBits_ends {c : Config} (hc : c.wf) (k : Nat) {b : Buffer} {vs : List Bool} (hpos : 1 ≤ b.sb)
    (hfit : 4 * (b.bl + vs.length) ≤ 24 * (b.sb * 2 ^ k)) (hmax : b.sb * 2 ^ k ≤ c.maxSlotBytes) :
    ∃ b', pushBits c b vs = .ok b' := by
  induction vs generalizing b k with
  | nil => exact ⟨b, rfl⟩
  | cons v vs ih =>
    simp only [List.length_cons] at hfit
    obtain ⟨sb1, hg⟩ := growBytes_ends hc k (nbl := b.bl + 1) (fuel := b.bl + 1) hpos (grow_fuel hpos)
      (by omega) hmax
    obtain ⟨_, _, j, hj, hmin⟩ := growBytes_ok hc hg
    have hpos1 : 1 ≤ sb1 := by rw [hj]; exact Nat.mul_pos hpos (Nat.two_pow_pos j)
    have hjk : j ≤ k := by
      rcases hmin with rfl | hmin
      · exact Nat.zero_le k
      · by_contra hlt
        have : b.sb * 2 ^ k ≤ b.sb * 2 ^ (j - 1) :=
          Nat.mul_le_mul_left _ (Nat.pow_le_pow_right (by decide) (by omega))
        omega
    have e : sb1 * 2 ^ (k - j) = b.sb * 2 ^ k := by
      rw [hj, Nat.mul_assoc, ← Nat.pow_add, Nat.add_sub_cancel' hjk]
    have hp := (pushBuffer_ok (c := c) (b := b) (v := v)).2 ⟨sb1, hg, rfl⟩
    simp only [pushBits, hp, bind, Except.bind]
    exact ih (k - j) hpos1 (by simp only [e]; omega) (by simp only [e]; exact hmax)

/-! ## The generator (41_crc_engine.md R130, R131) -/

theorem highestSet_some {w : Word} {n k : Nat} :
    highestSet w n = some k ↔ k < n ∧ w.getLsbD k = true ∧ ∀ j, k < j → j < n → w.getLsbD j = false := by
  induction n with
  | zero => simp [highestSet]
  | succ n ih =>
    unfold highestSet
    split
    · next h =>
      constructor
      · intro e
        cases e
        exact ⟨by omega, h, fun j h1 h2 => by omega⟩
      · rintro ⟨h1, h2, h3⟩
        by_cases e : k = n
        · rw [e]
        · have := h3 n (by omega) (by omega)
          rw [this] at h
          exact absurd h (by decide)
    · next h =>
      rw [ih]
      constructor
      · rintro ⟨h1, h2, h3⟩
        refine ⟨by omega, h2, fun j hj1 hj2 => ?_⟩
        by_cases e : j = n
        · rw [e]; simpa using h
        · exact h3 j hj1 (by omega)
      · rintro ⟨h1, h2, h3⟩
        have hne : k ≠ n := by
          rintro rfl
          exact h h2
        exact ⟨by omega, h2, fun j hj1 hj2 => h3 j hj1 (by omega)⟩

theorem highestSet_none {w : Word} {n : Nat} :
    highestSet w n = none ↔ ∀ j, j < n → w.getLsbD j = false := by
  induction n with
  | zero => simp [highestSet]
  | succ n ih =>
    unfold highestSet
    split
    · next h =>
      constructor
      · intro e; cases e
      · intro e; rw [e n (by omega)] at h; exact absurd h (by decide)
    · next h =>
      rw [ih]
      constructor
      · intro e j hj
        by_cases hjn : j = n
        · rw [hjn]; simpa using h
        · exact e j (by omega)
      · intro e j hj
        exact e j (by omega)

/-- A generator that passes: its degree is 1 … 31 and its highest set bit, and the masks are R131's. -/
theorem checkGenerator_ok {c : Config} (hc : c.wf) {gen : Word} {g : Generator}
    (h : checkGenerator c gen = .ok g) :
    1 ≤ g.deg ∧ g.deg ≤ 31 ∧ gen.getLsbD g.deg = true ∧ (∀ j, g.deg < j → gen.getLsbD j = false) ∧
      g = generatorOfDegree gen g.deg := by
  rw [checkGenerator_eq hc] at h; unfold generatorOfTop at h
  cases hs : highestSet gen 32 with
  | none => simp [hs] at h
  | some k =>
    cases k with
    | zero => simp [hs] at h
    | succ d =>
      simp only [hs] at h
      cases h
      obtain ⟨h1, h2, h3⟩ := highestSet_some.1 hs
      refine ⟨by simp [generatorOfDegree], by simp [generatorOfDegree]; omega, h2, fun j hj => ?_, rfl⟩
      by_cases hj32 : j < 32
      · exact h3 j hj hj32
      · exact BitVec.getLsbD_of_ge _ _ (Nat.le_of_not_lt hj32)

/-- A generator that passes has degree 1 at least, whatever the parameters. -/
theorem checkGenerator_deg_pos {c : Config} {gen : Word} {g : Generator} (h : checkGenerator c gen = .ok g) :
    1 ≤ g.deg := by
  unfold checkGenerator generatorOfTop at h
  split at h <;> cases h
  simp [generatorOfDegree]

/-- The only fault is BAD_GENERATOR. -/
theorem checkGenerator_error {c : Config} {gen : Word} {e : Cause} (h : checkGenerator c gen = .error e) :
    e = .badGenerator := by
  unfold checkGenerator generatorOfTop at h
  split at h <;> cases h <;> rfl

/-- A generator that does not pass has no bit set above bit 0. -/
theorem checkGenerator_error_bits {c : Config} (hc : c.wf) {gen : Word} {e : Cause}
    (h : checkGenerator c gen = .error e) : ∀ j, 1 ≤ j → gen.getLsbD j = false := by
  intro j hj
  by_cases hj32 : j < 32
  · rw [checkGenerator_eq hc] at h; unfold generatorOfTop at h
    cases hs : highestSet gen 32 with
    | none => exact highestSet_none.1 hs j hj32
    | some k =>
      cases k with
      | zero => exact (highestSet_some.1 hs).2.2 j hj hj32
      | succ d => simp [hs] at h
  · exact BitVec.getLsbD_of_ge _ _ (Nat.le_of_not_lt hj32)

/-- A generator whose highest set bit is `n` ≥ 1 passes, with degree `n`. -/
theorem checkGenerator_of_top {c : Config} (hc : c.wf) {gen : Word} {n : Nat} (h1 : 1 ≤ n)
    (h2 : gen.getLsbD n = true) (h3 : ∀ j, n < j → gen.getLsbD j = false) :
    checkGenerator c gen = .ok (generatorOfDegree gen n) := by
  have hn : n < 32 := by
    by_contra hc
    rw [BitVec.getLsbD_of_ge _ _ (Nat.le_of_not_lt hc)] at h2; cases h2
  have : highestSet gen 32 = some n := highestSet_some.2 ⟨hn, h2, fun j hj _ => h3 j hj⟩
  rw [checkGenerator_eq hc, this]
  cases n with
  | zero => omega
  | succ n => rfl

/-- Generators 0 and 1 do not pass, whatever the parameters. -/
theorem checkGenerator_lt_two (c : Config) {gen : Word} (h : gen.toNat < 2) :
    checkGenerator c gen = .error .badGenerator := by
  have hle : (generatorOperand c gen).toNat ≤ gen.toNat := by
    unfold generatorOperand
    simp only [BitVec.toNat_setWidth]
    exact le_trans (Nat.mod_le _ _) (Nat.mod_le _ _)
  unfold checkGenerator generatorOfTop
  split
  · rfl
  · rfl
  · next d hd =>
    have := Nat.ge_two_pow_of_testBit (highestSet_some.1 hd).2.1
    have : 2 ^ 1 ≤ 2 ^ (d + 1) := Nat.pow_le_pow_right (by decide) (by omega)
    omega

/-! ## The output copy (R139) -/

theorem build_ok {c : Config} {b out : Buffer} {r : Word} :
    build c b r = .ok out ↔ crcOutputSize b.bl ≤ c.maxSlotBytes ∧
      out = { sb := crcOutputSize b.bl, store := b.store.firstBytes (ceilDiv8 b.bl), bl := b.bl, res := r } := by
  unfold build alloc
  split
  · next h => simp [bind, Except.bind]; omega
  · next h => simp [bind, Except.bind, pure, Except.pure, Nat.le_of_not_lt h, eq_comm]

theorem build_error {c : Config} {b : Buffer} {r : Word} {e : Cause} :
    build c b r = .error e ↔ c.maxSlotBytes < crcOutputSize b.bl ∧ e = .allocFail := by
  unfold build alloc
  split
  · next h => simp [bind, Except.bind, h, eq_comm]
  · next h => simp [bind, Except.bind, pure, Except.pure, h]

theorem ceilDiv8_le (n : Nat) : n ≤ 8 * ceilDiv8 n := by unfold ceilDiv8; omega

/-- The copy holds the message's bits (R139). -/
theorem bits_firstBytes (o : BitOrder) (b : Buffer) (sb : Nat) (r : Word) :
    ({ sb := sb, store := b.store.firstBytes (ceilDiv8 b.bl), bl := b.bl, res := r } : Buffer).bits o
      = b.bits o := by
  unfold Buffer.bits
  apply List.map_congr_left
  intro i hi
  have hi' : i < b.bl := List.mem_range.1 hi
  have := ceilDiv8_le b.bl
  exact Memory.bitRead_firstBytes _ _ (by omega)

@[simp] theorem length_bitsMsbFirst (v : Word) (d : Nat) : (bitsMsbFirst v d).length = d := by
  induction d with
  | zero => rfl
  | succ d ih => simp [bitsMsbFirst, ih]

/-! ## The injector's writes (42_burst_injector.md R163) -/

theorem Memory.wf_fillBytes {m : Memory} (off : Nat) (v : Byte) (n : Nat) (h : m.wf = true) :
    (fillBytes m off v n).wf = true := by
  induction n with
  | zero => exact h
  | succ n ih => exact Memory.wf_write _ _ ih

theorem Memory.read_fillBytes {m : Memory} (off : Nat) (v : Byte) (n k : Nat) (h : m.wf = true) :
    (fillBytes m off v n).read k = if off ≤ k ∧ k < off + n then v else m.read k := by
  induction n with
  | zero =>
    have : ¬ (off ≤ k ∧ k < off + 0) := by omega
    rw [if_neg this]; rfl
  | succ n ih =>
    simp only [fillBytes]
    rw [Memory.read_write _ _ _ (Memory.wf_fillBytes off v n h), ih]
    by_cases hk : k = off + n
    · rw [if_pos hk, if_pos (by omega)]
    · rw [if_neg hk]
      by_cases h2 : off ≤ k ∧ k < off + n
      · rw [if_pos h2, if_pos (by omega)]
      · rw [if_neg h2, if_neg (by omega)]

/-! ## How a command ends -/

theorem finish_next {i : Instr} {s t : State} {r : Except Cause State} :
    finish i s r = .next t ↔ r = .ok t ∨ ∃ c, r = .error c ∧ t = takeFault c (cmdWord i) s := by
  cases r with
  | ok u => simp [finish]
  | error c => simp [finish, eq_comm]

/-- No command ends in a stop. -/
theorem finish_exists (i : Instr) (s : State) (r : Except Cause State) : ∃ t, finish i s r = .next t := by
  cases r with
  | ok u => exact ⟨u, rfl⟩
  | error c => exact ⟨takeFault c (cmdWord i) s, rfl⟩

end Sys2Proof.Machine
end

