-- ==== Sys2Proof/Laws/State.lean ====
section
/-! SUPPORT. What each update of the state leaves in each field, so that no later proof unfolds a record
update. -/

namespace Sys2Proof.Machine

variable (s : State) (h k : Handle) (o : Option Buffer) (v : Word) (b : Bool) (c : Cause) (w : Word)
  (words : List Word) (bytes : List Byte)

/-! ## Slots -/

@[simp] theorem State.slot_setSlot_self : (s.setSlot h o).slot h = o := by
  simp [State.slot, State.setSlot]

theorem State.slot_setSlot_ne (hk : k ≠ h) : (s.setSlot h o).slot k = s.slot k := by
  have : h.toNat ≠ k.toNat := fun e => hk (BitVec.eq_of_toNat_eq e.symm)
  simp [State.slot, State.setSlot, this]

theorem State.slot_setSlot : (s.setSlot h o).slot k = if k = h then o else s.slot k := by
  split
  · next e => subst e; simp
  · next e => exact State.slot_setSlot_ne s h k o e

@[simp] theorem State.slot_setResult : (s.setResult v).slot k = s.slot k := rfl
@[simp] theorem State.slot_setRnz : (s.setRnz b).slot k = s.slot k := rfl
@[simp] theorem State.slot_countDraw : s.countDraw.slot k = s.slot k := rfl
@[simp] theorem State.slot_takeFault : (takeFault c w s).slot k = s.slot k := rfl
@[simp] theorem State.slot_takeWord : s.takeWord.slot k = s.slot k := rfl
@[simp] theorem State.slot_retire : (s.retire words bytes).slot k = s.slot k := by
  unfold State.retire; split <;> rfl
@[simp] theorem State.slot_resetWith (cfg : Config) : (State.resetWith cfg).slot k = none := by
  simp [State.slot, State.resetWith]

/-! ## setSlot -/

@[simp] theorem State.setSlot_cfg : (s.setSlot h o).cfg = s.cfg := rfl
@[simp] theorem State.setSlot_result : (s.setSlot h o).result = s.result := rfl
@[simp] theorem State.setSlot_status : (s.setSlot h o).status = s.status := rfl
@[simp] theorem State.setSlot_faultCmd : (s.setSlot h o).faultCmd = s.faultCmd := rfl
@[simp] theorem State.setSlot_cmdPort : (s.setSlot h o).cmdPort = s.cmdPort := rfl
@[simp] theorem State.setSlot_dataPort : (s.setSlot h o).dataPort = s.dataPort := rfl
@[simp] theorem State.setSlot_draws : (s.setSlot h o).draws = s.draws := rfl

/-! ## setResult -/

@[simp] theorem State.setResult_cfg : (s.setResult v).cfg = s.cfg := rfl
@[simp] theorem State.setResult_slots : (s.setResult v).slots = s.slots := rfl
@[simp] theorem State.setResult_result : (s.setResult v).result = v := rfl
@[simp] theorem State.setResult_status : (s.setResult v).status = s.status := rfl
@[simp] theorem State.setResult_faultCmd : (s.setResult v).faultCmd = s.faultCmd := rfl
@[simp] theorem State.setResult_cmdPort : (s.setResult v).cmdPort = s.cmdPort := rfl
@[simp] theorem State.setResult_dataPort : (s.setResult v).dataPort = s.dataPort := rfl
@[simp] theorem State.setResult_draws : (s.setResult v).draws = s.draws := rfl

/-! ## setRnz -/

@[simp] theorem State.setRnz_cfg : (s.setRnz b).cfg = s.cfg := rfl
@[simp] theorem State.setRnz_slots : (s.setRnz b).slots = s.slots := rfl
@[simp] theorem State.setRnz_result : (s.setRnz b).result = s.result := rfl
@[simp] theorem State.setRnz_status : (s.setRnz b).status = statusSetRnz s.status b := rfl
@[simp] theorem State.setRnz_faultCmd : (s.setRnz b).faultCmd = s.faultCmd := rfl
@[simp] theorem State.setRnz_cmdPort : (s.setRnz b).cmdPort = s.cmdPort := rfl
@[simp] theorem State.setRnz_dataPort : (s.setRnz b).dataPort = s.dataPort := rfl
@[simp] theorem State.setRnz_draws : (s.setRnz b).draws = s.draws := rfl

/-! ## countDraw -/

@[simp] theorem State.countDraw_cfg : s.countDraw.cfg = s.cfg := rfl
@[simp] theorem State.countDraw_slots : s.countDraw.slots = s.slots := rfl
@[simp] theorem State.countDraw_result : s.countDraw.result = s.result := rfl
@[simp] theorem State.countDraw_status : s.countDraw.status = s.status := rfl
@[simp] theorem State.countDraw_faultCmd : s.countDraw.faultCmd = s.faultCmd := rfl
@[simp] theorem State.countDraw_cmdPort : s.countDraw.cmdPort = s.cmdPort := rfl
@[simp] theorem State.countDraw_dataPort : s.countDraw.dataPort = s.dataPort := rfl
@[simp] theorem State.countDraw_draws : s.countDraw.draws = s.draws + 1 := rfl

/-! ## takeFault -/

@[simp] theorem takeFault_cfg : (takeFault c w s).cfg = s.cfg := rfl
@[simp] theorem takeFault_slots : (takeFault c w s).slots = s.slots := rfl
@[simp] theorem takeFault_result : (takeFault c w s).result = s.result := rfl
@[simp] theorem takeFault_status : (takeFault c w s).status = statusEnterFault s.status c := rfl
@[simp] theorem takeFault_faultCmd : (takeFault c w s).faultCmd = w := rfl
@[simp] theorem takeFault_cmdPort : (takeFault c w s).cmdPort = s.cmdPort := rfl
@[simp] theorem takeFault_dataPort : (takeFault c w s).dataPort = s.dataPort := rfl
@[simp] theorem takeFault_draws : (takeFault c w s).draws = s.draws := rfl

/-! ## takeWord -/

@[simp] theorem State.takeWord_cfg : s.takeWord.cfg = s.cfg := rfl
@[simp] theorem State.takeWord_slots : s.takeWord.slots = s.slots := rfl
@[simp] theorem State.takeWord_result : s.takeWord.result = s.result := rfl
@[simp] theorem State.takeWord_status : s.takeWord.status = s.status := rfl
@[simp] theorem State.takeWord_faultCmd : s.takeWord.faultCmd = s.faultCmd := rfl
@[simp] theorem State.takeWord_cmdPort : s.takeWord.cmdPort = s.cmdPort.tail := rfl
@[simp] theorem State.takeWord_dataPort : s.takeWord.dataPort = s.dataPort := rfl
@[simp] theorem State.takeWord_draws : s.takeWord.draws = s.draws := rfl

/-! ## retire: only the ports change -/

@[simp] theorem State.retire_cfg : (s.retire words bytes).cfg = s.cfg := by
  unfold State.retire; split <;> rfl
@[simp] theorem State.retire_slots : (s.retire words bytes).slots = s.slots := by
  unfold State.retire; split <;> rfl
@[simp] theorem State.retire_result : (s.retire words bytes).result = s.result := by
  unfold State.retire; split <;> rfl
@[simp] theorem State.retire_status : (s.retire words bytes).status = s.status := by
  unfold State.retire; split <;> rfl
@[simp] theorem State.retire_faultCmd : (s.retire words bytes).faultCmd = s.faultCmd := by
  unfold State.retire; split <;> rfl
@[simp] theorem State.retire_draws : (s.retire words bytes).draws = s.draws := by
  unfold State.retire; split <;> rfl

/-! ## States are equal when their fields and their slots are -/

theorem State.ext_slots {s t : State} (hc : s.cfg = t.cfg) (hs : ∀ h, s.slot h = t.slot h)
    (hr : s.result = t.result) (hst : s.status = t.status) (hf : s.faultCmd = t.faultCmd)
    (hw : s.cmdPort = t.cmdPort) (hd : s.dataPort = t.dataPort) (hn : s.draws = t.draws) : s = t := by
  have hv : s.slots = t.slots := by
    apply Vector.ext
    intro i hi
    simpa [State.slot, Nat.mod_eq_of_lt hi] using hs (BitVec.ofNat 4 i)
  cases s; cases t; simp_all

end Sys2Proof.Machine
end

