-- ==== Sys2Proof/Laws/Exec.lean ====
section
/-! SUPPORT. What each command's pseudocode can do: for each, the conditions under which it gives a state and
the state it gives; for all of them, that exec is that state or a fault taken. -/

namespace Sys2Proof.Machine

/-! ## Sequencing -/

theorem bind_eq_ok {α β : Type} {x : Except Cause α} {f : α → Except Cause β} {b : β} :
    (x >>= f) = .ok b ↔ ∃ a, x = .ok a ∧ f a = .ok b := by
  cases x <;> simp [bind, Except.bind]

theorem bind_eq_error {α β : Type} {x : Except Cause α} {f : α → Except Cause β} {c : Cause} :
    (x >>= f) = .error c ↔ x = .error c ∨ ∃ a, x = .ok a ∧ f a = .error c := by
  cases x <;> simp [bind, Except.bind]

theorem pure_eq_ok {α : Type} {a b : α} : (pure a : Except Cause α) = .ok b ↔ a = b := by
  simp [pure, Except.pure]

theorem pure_ne_error {α : Type} {a : α} {c : Cause} : (pure a : Except Cause α) ≠ .error c := by
  simp [pure, Except.pure]

/-! ## Each command's state -/

variable {s t : State}

theorem runFromBytes_ok {d : Handle} {data : List Byte} :
    runFromBytes d data s = .ok t ↔ d.toNat < s.cfg.nslots ∧ s.slot d = none ∧
      fromBytesSize s.cfg data.length ≤ s.cfg.maxSlotBytes ∧
      t = s.setSlot d (some { sb := fromBytesSize s.cfg data.length, store := Memory.ofBytes 0 data,
                              bl := 8 * data.length, res := 0 }) := by
  unfold runFromBytes
  simp only [bind_eq_ok, pure_eq_ok, checkD_ok, alloc_ok]
  constructor
  · rintro ⟨_, ⟨h1, h2⟩, _, ⟨h3, rfl⟩, rfl⟩
    exact ⟨h1, h2, h3, rfl⟩
  · rintro ⟨h1, h2, h3, rfl⟩
    exact ⟨(), ⟨h1, h2⟩, _, ⟨h3, rfl⟩, rfl⟩

theorem runNewEmpty_ok {d : Handle} {capBits : Word} :
    runNewEmpty d capBits s = .ok t ↔ d.toNat < s.cfg.nslots ∧ s.slot d = none ∧
      newEmptySize capBits.toNat ≤ s.cfg.maxSlotBytes ∧
      t = s.setSlot d (some { sb := newEmptySize capBits.toNat, store := [], bl := 0, res := 0 }) := by
  unfold runNewEmpty
  simp only [bind_eq_ok, pure_eq_ok, checkD_ok, alloc_ok]
  constructor
  · rintro ⟨_, ⟨h1, h2⟩, _, ⟨h3, rfl⟩, rfl⟩
    exact ⟨h1, h2, h3, rfl⟩
  · rintro ⟨h1, h2, h3, rfl⟩
    exact ⟨(), ⟨h1, h2⟩, _, ⟨h3, rfl⟩, rfl⟩

theorem runGetBit_ok {h : Handle} {index : Word} :
    runGetBit h index s = .ok t ↔ ∃ b, h.toNat < s.cfg.nslots ∧ s.slot h = some b ∧ index.toNat < b.cap ∧
      ((index.toNat < b.bl ∧ t = s.setResult (bitWord (b.store.bitRead s.cfg.bitOrder index.toNat))) ∨
       (b.bl ≤ index.toNat ∧ t = (s.setResult (bitWord (Config.drawBit s.draws))).countDraw)) := by
  unfold runGetBit
  simp only [bind_eq_ok, checkS_ok]
  constructor
  · rintro ⟨b, ⟨h1, h2⟩, h3⟩
    split at h3
    · cases h3
    · next hc =>
      split at h3
      · next hl => exact ⟨b, h1, h2, by omega, .inl ⟨hl, (pure_eq_ok.1 h3).symm⟩⟩
      · next hl => exact ⟨b, h1, h2, by omega, .inr ⟨by omega, (pure_eq_ok.1 h3).symm⟩⟩
  · rintro ⟨b, h1, h2, hc, ⟨hl, rfl⟩ | ⟨hl, rfl⟩⟩
    · refine ⟨b, ⟨h1, h2⟩, ?_⟩
      rw [if_neg (by omega), if_pos hl]; rfl
    · refine ⟨b, ⟨h1, h2⟩, ?_⟩
      rw [if_neg (by omega), if_neg (by omega)]; rfl

theorem runSetBit_ok {h : Handle} {index : Word} {v : Bool} :
    runSetBit h index v s = .ok t ↔ ∃ b, h.toNat < s.cfg.nslots ∧ s.slot h = some b ∧ index.toNat < b.cap ∧
      t = s.setSlot h (some { b with store := b.store.bitWrite s.cfg.bitOrder index.toNat v }) := by
  unfold runSetBit
  simp only [bind_eq_ok, checkS_ok]
  constructor
  · rintro ⟨b, ⟨h1, h2⟩, h3⟩
    split at h3
    · cases h3
    · exact ⟨b, h1, h2, by omega, (pure_eq_ok.1 h3).symm⟩
  · rintro ⟨b, h1, h2, hc, rfl⟩
    refine ⟨b, ⟨h1, h2⟩, ?_⟩
    rw [if_neg (by omega)]; rfl

theorem runPushBit_ok {h : Handle} {v : Bool} :
    runPushBit h v s = .ok t ↔ ∃ b sb', h.toNat < s.cfg.nslots ∧ s.slot h = some b ∧
      growBytes s.cfg (b.bl + 1) (b.bl + 1) b.sb = .ok sb' ∧
      t = s.setSlot h (some { b with sb := sb', store := b.store.bitWrite s.cfg.bitOrder b.bl v, bl := b.bl + 1 }) := by
  unfold runPushBit
  simp only [bind_eq_ok, pure_eq_ok, checkS_ok, pushBuffer_ok]
  constructor
  · rintro ⟨b, ⟨h1, h2⟩, b', ⟨sb', h3, rfl⟩, rfl⟩
    exact ⟨b, sb', h1, h2, h3, rfl⟩
  · rintro ⟨b, sb', h1, h2, h3, rfl⟩
    exact ⟨b, ⟨h1, h2⟩, _, ⟨sb', h3, rfl⟩, rfl⟩

theorem runPopBit_ok {h : Handle} :
    runPopBit h s = .ok t ↔ ∃ b, h.toNat < s.cfg.nslots ∧ s.slot h = some b ∧ b.bl ≠ 0 ∧
      t = (s.setSlot h (some { b with bl := b.bl - 1 })).setResult (bitWord (b.store.bitRead s.cfg.bitOrder (b.bl - 1))) := by
  unfold runPopBit
  simp only [bind_eq_ok, checkS_ok]
  constructor
  · rintro ⟨b, ⟨h1, h2⟩, h3⟩
    split at h3
    · cases h3
    · next hb => exact ⟨b, h1, h2, hb, (pure_eq_ok.1 h3).symm⟩
  · rintro ⟨b, h1, h2, hb, rfl⟩
    refine ⟨b, ⟨h1, h2⟩, ?_⟩
    rw [if_neg hb]; rfl

theorem runFree_ok {h : Handle} :
    runFree h s = .ok t ↔ ∃ b, h.toNat < s.cfg.nslots ∧ s.slot h = some b ∧ t = s.setSlot h none := by
  unfold runFree
  simp only [bind_eq_ok, pure_eq_ok, checkS_ok, and_assoc]
  constructor <;> rintro ⟨b, h1, h2, rfl⟩ <;> exact ⟨b, h1, h2, rfl⟩

theorem runGetLen_ok {h : Handle} :
    runGetLen h s = .ok t ↔ ∃ b, h.toNat < s.cfg.nslots ∧ s.slot h = some b ∧
      t = s.setResult (BitVec.ofNat 32 b.bl) := by
  unfold runGetLen
  simp only [bind_eq_ok, pure_eq_ok, checkS_ok, and_assoc]
  constructor <;> rintro ⟨b, h1, h2, rfl⟩ <;> exact ⟨b, h1, h2, rfl⟩

theorem runGetCap_ok {h : Handle} :
    runGetCap h s = .ok t ↔ ∃ b, h.toNat < s.cfg.nslots ∧ s.slot h = some b ∧
      t = s.setResult (BitVec.ofNat 32 b.cap) := by
  unfold runGetCap
  simp only [bind_eq_ok, pure_eq_ok, checkS_ok, and_assoc]
  constructor <;> rintro ⟨b, h1, h2, rfl⟩ <;> exact ⟨b, h1, h2, rfl⟩

theorem runGetResidue_ok {h : Handle} :
    runGetResidue h s = .ok t ↔ ∃ b, h.toNat < s.cfg.nslots ∧ s.slot h = some b ∧ t = s.setResult b.res := by
  unfold runGetResidue
  simp only [bind_eq_ok, pure_eq_ok, checkS_ok, and_assoc]
  constructor <;> rintro ⟨b, h1, h2, rfl⟩ <;> exact ⟨b, h1, h2, rfl⟩

/-- The output that Build makes (41_crc_engine.md R139). -/
def copyOf (b : Buffer) (residue : Word) : Buffer :=
  { sb := crcOutputSize b.bl, store := b.store.firstBytes (ceilDiv8 b.bl), bl := b.bl, res := residue }

theorem runCrcEncode_ok {d h : Handle} {gen : Word} :
    runCrcEncode d h gen s = .ok t ↔ ∃ b g out, h.toNat < s.cfg.nslots ∧ s.slot h = some b ∧
      d.toNat < s.cfg.nslots ∧ s.slot d = none ∧ checkGenerator s.cfg gen = .ok g ∧
      crcOutputSize b.bl ≤ s.cfg.maxSlotBytes ∧
      pushBits s.cfg (copyOf b (crcResidue s.cfg g b)) (bitsMsbFirst (crcResidue s.cfg g b) g.deg) = .ok out ∧
      t = (s.setSlot d (some out)).setRnz (decide (crcResidue s.cfg g b ≠ 0)) := by
  unfold runCrcEncode
  simp only [bind_eq_ok, pure_eq_ok, checkS_ok, checkD_ok, build_ok]
  constructor
  · rintro ⟨b, ⟨h1, h2⟩, _, ⟨h3, h4⟩, g, h5, _, ⟨h6, rfl⟩, out, h7, rfl⟩
    exact ⟨b, g, out, h1, h2, h3, h4, h5, h6, h7, rfl⟩
  · rintro ⟨b, g, out, h1, h2, h3, h4, h5, h6, h7, rfl⟩
    exact ⟨b, ⟨h1, h2⟩, (), ⟨h3, h4⟩, g, h5, _, ⟨h6, rfl⟩, out, h7, rfl⟩

theorem runCrcDecode_ok {d h : Handle} {gen : Word} :
    runCrcDecode d h gen s = .ok t ↔ ∃ b g, h.toNat < s.cfg.nslots ∧ s.slot h = some b ∧
      d.toNat < s.cfg.nslots ∧ s.slot d = none ∧ checkGenerator s.cfg gen = .ok g ∧
      crcOutputSize b.bl ≤ s.cfg.maxSlotBytes ∧
      t = (s.setSlot d (some (copyOf b (crcResidue s.cfg g b)))).setRnz
        (decide (crcResidue s.cfg g b ≠ 0)) := by
  unfold runCrcDecode
  simp only [bind_eq_ok, pure_eq_ok, checkS_ok, checkD_ok, build_ok]
  constructor
  · rintro ⟨b, ⟨h1, h2⟩, _, ⟨h3, h4⟩, g, h5, _, ⟨h6, rfl⟩, rfl⟩
    exact ⟨b, g, h1, h2, h3, h4, h5, h6, rfl⟩
  · rintro ⟨b, g, h1, h2, h3, h4, h5, h6, rfl⟩
    exact ⟨b, ⟨h1, h2⟩, (), ⟨h3, h4⟩, g, h5, _, ⟨h6, rfl⟩, rfl⟩

theorem runInjectBurst_ok {h : Handle} {burstBits : Word} {fill : Fill} :
    runInjectBurst h burstBits fill s = .ok t ↔ ∃ b, h.toNat < s.cfg.nslots ∧ s.slot h = some b ∧
      ((0 ≤ lastOffset b burstBits.toNat ∧
          t = (injectAt h b burstBits.toNat (burstOffset s b burstBits.toNat) fill s).countDraw) ∨
       (lastOffset b burstBits.toNat < 0 ∧
          t = injectAt h b burstBits.toNat (burstOffset s b burstBits.toNat) fill s)) := by
  unfold runInjectBurst
  simp only [bind_eq_ok, checkS_ok]
  constructor
  · rintro ⟨b, ⟨h1, h2⟩, h3⟩
    refine ⟨b, h1, h2, ?_⟩
    split at h3
    · next hx => exact .inl ⟨hx, (pure_eq_ok.1 h3).symm⟩
    · next hx => exact .inr ⟨by omega, (pure_eq_ok.1 h3).symm⟩
  · rintro ⟨b, h1, h2, ⟨hx, rfl⟩ | ⟨hx, rfl⟩⟩
    · refine ⟨b, ⟨h1, h2⟩, ?_⟩
      rw [if_pos hx]; rfl
    · refine ⟨b, ⟨h1, h2⟩, ?_⟩
      rw [if_neg (by omega)]; rfl

/-! ## All commands -/

/-- The pseudocode of a command: the state it gives or the fault it raises. -/
def runOf (i : Instr) (s : State) : Except Cause State :=
  match i with
  | .fromBytes d data => runFromBytes d data s
  | .newEmpty d capBits => runNewEmpty d capBits s
  | .getBit h index => runGetBit h index s
  | .setBit h index v => runSetBit h index v s
  | .pushBit h v => runPushBit h v s
  | .popBit h => runPopBit h s
  | .free h => runFree h s
  | .getLen h => runGetLen h s
  | .getCap h => runGetCap h s
  | .getResidue h => runGetResidue h s
  | .crcEncode d h gen => runCrcEncode d h gen s
  | .crcDecode d h gen => runCrcDecode d h gen s
  | .injectBurst h burstBits fill => runInjectBurst h burstBits fill s

theorem exec_eq_finish (i : Instr) (s : State) : exec i s = finish i s (runOf i s) := by
  cases i <;> rfl

/-- A command gives the state of its pseudocode, or its fault taken. -/
theorem exec_next {i : Instr} :
    exec i s = .next t ↔ runOf i s = .ok t ∨ ∃ c, runOf i s = .error c ∧ t = takeFault c (cmdWord i) s := by
  rw [exec_eq_finish, finish_next]

theorem exec_of_ok {i : Instr} (h : runOf i s = .ok t) : exec i s = .next t := exec_next.2 (.inl h)

theorem exec_of_error {i : Instr} {c : Cause} (h : runOf i s = .error c) :
    exec i s = .next (takeFault c (cmdWord i) s) := exec_next.2 (.inr ⟨c, h, rfl⟩)

/-- What a command that completes leaves alone: the parameters, the ports, FAULT_CMD, the halted flag, every
slot it does not name, RESULT unless it is a query, STATUS but RNZ of a CRC command. -/
theorem runOf_frame {i : Instr} (h : runOf i s = .ok t) :
    t.cfg = s.cfg ∧ t.cmdPort = s.cmdPort ∧ t.dataPort = s.dataPort ∧ t.faultCmd = s.faultCmd ∧
      t.halted = s.halted ∧ (∀ k, destination i ≠ some k → source i ≠ some k → t.slot k = s.slot k) ∧
      (writesResult i = false → t.result = s.result) ∧ (isCrc i = false → t.status = s.status) ∧
      (t.status = s.status ∨ ∃ v, t.status = statusSetRnz s.status v) ∧
      (t.draws = s.draws ∨ t.draws = s.draws + 1) := by
  cases i with
  | fromBytes d data =>
    obtain ⟨-, -, -, rfl⟩ := runFromBytes_ok.1 h
    refine ⟨rfl, rfl, rfl, rfl, rfl, fun k hk _ => ?_, fun _ => rfl, fun _ => rfl, .inl rfl, .inl rfl⟩
    exact State.slot_setSlot_ne _ _ _ _ (fun e => hk (by simp [destination, e]))
  | newEmpty d capBits =>
    obtain ⟨-, -, -, rfl⟩ := runNewEmpty_ok.1 h
    refine ⟨rfl, rfl, rfl, rfl, rfl, fun k hk _ => ?_, fun _ => rfl, fun _ => rfl, .inl rfl, .inl rfl⟩
    exact State.slot_setSlot_ne _ _ _ _ (fun e => hk (by simp [destination, e]))
  | getBit g index =>
    obtain ⟨b, -, -, -, ⟨-, rfl⟩ | ⟨-, rfl⟩⟩ := runGetBit_ok.1 h
    · exact ⟨rfl, rfl, rfl, rfl, rfl, fun _ _ _ => rfl, by simp [writesResult], fun _ => rfl, .inl rfl, .inl rfl⟩
    · exact ⟨rfl, rfl, rfl, rfl, rfl, fun _ _ _ => rfl, by simp [writesResult], fun _ => rfl, .inl rfl, .inr rfl⟩
  | setBit g index v =>
    obtain ⟨b, -, -, -, rfl⟩ := runSetBit_ok.1 h
    refine ⟨rfl, rfl, rfl, rfl, rfl, fun k _ hk => ?_, fun _ => rfl, fun _ => rfl, .inl rfl, .inl rfl⟩
    exact State.slot_setSlot_ne _ _ _ _ (fun e => hk (by simp [source, e]))
  | pushBit g v =>
    obtain ⟨b, sb', -, -, -, rfl⟩ := runPushBit_ok.1 h
    refine ⟨rfl, rfl, rfl, rfl, rfl, fun k _ hk => ?_, fun _ => rfl, fun _ => rfl, .inl rfl, .inl rfl⟩
    exact State.slot_setSlot_ne _ _ _ _ (fun e => hk (by simp [source, e]))
  | popBit g =>
    obtain ⟨b, -, -, -, rfl⟩ := runPopBit_ok.1 h
    refine ⟨rfl, rfl, rfl, rfl, rfl, fun k _ hk => ?_, by simp [writesResult], fun _ => rfl, .inl rfl, .inl rfl⟩
    rw [State.slot_setResult]
    exact State.slot_setSlot_ne _ _ _ _ (fun e => hk (by simp [source, e]))
  | free g =>
    obtain ⟨b, -, -, rfl⟩ := runFree_ok.1 h
    refine ⟨rfl, rfl, rfl, rfl, rfl, fun k _ hk => ?_, fun _ => rfl, fun _ => rfl, .inl rfl, .inl rfl⟩
    exact State.slot_setSlot_ne _ _ _ _ (fun e => hk (by simp [source, e]))
  | getLen g =>
    obtain ⟨b, -, -, rfl⟩ := runGetLen_ok.1 h
    exact ⟨rfl, rfl, rfl, rfl, rfl, fun _ _ _ => rfl, by simp [writesResult], fun _ => rfl, .inl rfl, .inl rfl⟩
  | getCap g =>
    obtain ⟨b, -, -, rfl⟩ := runGetCap_ok.1 h
    exact ⟨rfl, rfl, rfl, rfl, rfl, fun _ _ _ => rfl, by simp [writesResult], fun _ => rfl, .inl rfl, .inl rfl⟩
  | getResidue g =>
    obtain ⟨b, -, -, rfl⟩ := runGetResidue_ok.1 h
    exact ⟨rfl, rfl, rfl, rfl, rfl, fun _ _ _ => rfl, by simp [writesResult], fun _ => rfl, .inl rfl, .inl rfl⟩
  | crcEncode d g gen =>
    obtain ⟨b, gn, out, -, -, -, -, -, -, -, rfl⟩ := runCrcEncode_ok.1 h
    refine ⟨rfl, rfl, rfl, rfl, by simp, fun k hk _ => ?_, fun _ => rfl, by simp [isCrc], .inr ⟨_, rfl⟩, .inl rfl⟩
    rw [State.slot_setRnz]
    exact State.slot_setSlot_ne _ _ _ _ (fun e => hk (by simp [destination, e]))
  | crcDecode d g gen =>
    obtain ⟨b, gn, -, -, -, -, -, -, rfl⟩ := runCrcDecode_ok.1 h
    refine ⟨rfl, rfl, rfl, rfl, by simp, fun k hk _ => ?_, fun _ => rfl, by simp [isCrc], .inr ⟨_, rfl⟩, .inl rfl⟩
    rw [State.slot_setRnz]
    exact State.slot_setSlot_ne _ _ _ _ (fun e => hk (by simp [destination, e]))
  | injectBurst g burstBits fill =>
    obtain ⟨b, -, -, ⟨-, rfl⟩ | ⟨-, rfl⟩⟩ := runInjectBurst_ok.1 h
    · refine ⟨rfl, rfl, rfl, rfl, rfl, fun k _ hk => ?_, fun _ => rfl, fun _ => rfl, .inl rfl, .inr rfl⟩
      rw [State.slot_countDraw]
      exact State.slot_setSlot_ne _ _ _ _ (fun e => hk (by simp [source, e]))
    · refine ⟨rfl, rfl, rfl, rfl, rfl, fun k _ hk => ?_, fun _ => rfl, fun _ => rfl, .inl rfl, .inl rfl⟩
      exact State.slot_setSlot_ne _ _ _ _ (fun e => hk (by simp [source, e]))

/-- A command touches neither the ports nor the parameters. -/
theorem exec_ports {i : Instr} (h : exec i s = .next t) :
    t.cmdPort = s.cmdPort ∧ t.dataPort = s.dataPort ∧ t.cfg = s.cfg := by
  rcases exec_next.1 h with h | ⟨c, -, rfl⟩
  · obtain ⟨h1, h2, h3, -⟩ := runOf_frame h
    exact ⟨h2, h3, h1⟩
  · exact ⟨rfl, rfl, rfl⟩

/-- Outside the halted state a command leaves the block halted exactly when it faults. -/
theorem exec_halted {i : Instr} (hs : s.halted = false) (h : exec i s = .next t) :
    (t.halted = false ∧ runOf i s = .ok t) ∨
      (t.halted = true ∧ ∃ c, runOf i s = .error c ∧ t = takeFault c (cmdWord i) s) := by
  rcases exec_next.1 h with h | ⟨c, hc, rfl⟩
  · exact .inl ⟨by rw [(runOf_frame h).2.2.2.2.1, hs], h⟩
  · exact .inr ⟨halted_takeFault c _ s, c, hc, rfl⟩

end Sys2Proof.Machine
end

