-- ==== Sys2Proof/Laws/Crc.lean ====
section
/-! SUPPORT. The CRC engine bit by bit (41_crc_engine.md): the masks, one step, the run's width, the residue,
the trace, and the outputs of the two commands. -/

namespace Sys2Proof.Machine

theorem getLsbD_wmask {c : Config} (hc : c.wf) {gen : Word} {g : Generator}
    (h : checkGenerator c gen = .ok g) (j : Nat) :
    g.wmask.getLsbD j = decide (j < g.deg) := by
  obtain ⟨h1, h2, -, -, e⟩ := checkGenerator_ok hc h
  rw [e]
  have key : ((1#32 <<< g.deg) - 1#32).toNat = 2 ^ g.deg - 1 := by
    have hp : 2 ^ g.deg ≤ 2 ^ 31 := Nat.pow_le_pow_right (by decide) h2
    have hp1 : 1 ≤ 2 ^ g.deg := Nat.one_le_two_pow
    rw [BitVec.toNat_sub]
    simp only [BitVec.toNat_shiftLeft, BitVec.toNat_ofNat, Nat.shiftLeft_eq]
    norm_num
    omega
  rw [BitVec.getLsbD, generatorOfDegree]
  simp only [key, Nat.testBit_two_pow_sub_one]

theorem xmask_eq {c : Config} (hc : c.wf) {gen : Word} {g : Generator}
    (h : checkGenerator c gen = .ok g) : g.xmask = gen &&& g.wmask := by
  obtain ⟨-, -, -, -, e⟩ := checkGenerator_ok hc h
  rw [e]; rfl

theorem getLsbD_bitWord (v : Bool) (j : Nat) : (bitWord v).getLsbD j = (decide (j = 0) && v) := by
  cases v
  · simp [bitWord]
  · simp [bitWord, BitVec.getLsbD_one]

/-- One step of R134, bit by bit. -/
theorem getLsbD_engineStep {c : Config} (hc : c.wf) {gen : Word} {g : Generator}
    (h : checkGenerator c gen = .ok g) (sr : Word)
    (v : Bool) (j : Nat) :
    (engineStep g sr v).getLsbD j =
      (decide (j < g.deg) &&
        (xor (if j = 0 then v else sr.getLsbD (j - 1)) (engineTop g sr && gen.getLsbD j))) := by
  have hw := getLsbD_wmask hc h
  have hd := (checkGenerator_ok hc h).2.1
  have hS : ((sr <<< 1 ||| bitWord v) &&& g.wmask).getLsbD j =
      (decide (j < g.deg) && (if j = 0 then v else sr.getLsbD (j - 1))) := by
    rw [BitVec.getLsbD_and, BitVec.getLsbD_or, BitVec.getLsbD_shiftLeft, hw, getLsbD_bitWord]
    by_cases hj : j < g.deg
    · by_cases h0 : j = 0
      · subst h0; simp [hj]
      · rw [if_neg h0]
        generalize sr.getLsbD (j - 1) = e
        simp [hj, h0, show j < 32 by omega, show ¬ j < 1 by omega]
    · simp [hj]
  have hX : g.xmask.getLsbD j = (decide (j < g.deg) && gen.getLsbD j) := by
    rw [xmask_eq hc h, BitVec.getLsbD_and, hw, Bool.and_comm]
  unfold engineStep
  dsimp only
  split
  · next ht =>
    rw [BitVec.getLsbD_xor, hS, hX, ht]
    generalize (if j = 0 then v else sr.getLsbD (j - 1)) = e
    generalize gen.getLsbD j = f
    cases decide (j < g.deg) <;> simp
  · next ht =>
    rw [hS]
    simp only [Bool.not_eq_true] at ht
    rw [ht]
    generalize (if j = 0 then v else sr.getLsbD (j - 1)) = e
    simp

/-- The bits of the register at `d` and above stay 0 (R134). -/
theorem getLsbD_engineRun {c : Config} (hc : c.wf) {gen : Word} {g : Generator}
    (h : checkGenerator c gen = .ok g) (xs : List Bool)
    (sr : Word) (hsr : ∀ j, g.deg ≤ j → sr.getLsbD j = false) :
    ∀ j, g.deg ≤ j → (engineRun g sr xs).getLsbD j = false := by
  induction xs generalizing sr with
  | nil => exact hsr
  | cons v vs ih =>
    refine ih _ fun j hj => ?_
    rw [getLsbD_engineStep hc h]; simp [Nat.not_lt.2 hj]

theorem toNat_lt_of_bits {w : Word} {n : Nat} (h : ∀ j, n ≤ j → w.getLsbD j = false) : w.toNat < 2 ^ n :=
  Nat.lt_pow_two_of_testBit _ fun i hi => h i hi

/-! ## The residue (R136, R137) -/

/-- The two normalizations cancel (R137, log 14). -/
theorem residueOfRegister_eq (c : Config) (w : Word) : residueOfRegister c w = w := by
  have hrev : reverseBytes (reverseBytes w) = w := by
    apply BitVec.eq_of_getLsbD_eq
    intro i hi
    unfold reverseBytes
    simp only [BitVec.getLsbD_append, BitVec.getLsbD_extractLsb']
    interval_cases i <;> simp
  unfold residueOfRegister normalizeWord
  split
  · exact hrev
  · rfl

theorem getLsbD_crcResidue {c : Config} (hc : c.wf) {gen : Word} {g : Generator}
    (h : checkGenerator c gen = .ok g) (b : Buffer) : ∀ j, g.deg ≤ j → (crcResidue c g b).getLsbD j = false := by
  intro j hj
  unfold crcResidue
  rw [residueOfRegister_eq]
  exact getLsbD_engineRun hc h _ 0 (by simp) j hj

theorem crcResidue_lt_31 {c : Config} (hc : c.wf) {gen : Word} {g : Generator}
    (h : checkGenerator c gen = .ok g) (b : Buffer) : (crcResidue c g b).toNat < 2 ^ 31 :=
  toNat_lt_of_bits fun j hj => getLsbD_crcResidue hc h b j (le_trans (checkGenerator_ok hc h).2.1 hj)

/-- The residue depends on the valid bits alone (R28, R133). -/
theorem crcResidue_congr {c : Config} {g : Generator} {b b' : Buffer} (h : b.bits c.bitOrder = b'.bits c.bitOrder) :
    crcResidue c g b = crcResidue c g b' := by
  unfold crcResidue engineInput; rw [h]

theorem bitsMsbFirst_eq (v : Word) (n : Nat) :
    bitsMsbFirst v n = (List.range n).map (fun j => v.getLsbD (n - 1 - j)) := by
  induction n with
  | zero => rfl
  | succ n ih =>
    rw [List.range_succ_eq_map]
    simp only [bitsMsbFirst, ih, List.map_cons, List.map_map]
    congr 1
    apply List.map_congr_left
    intro j hj
    have := List.mem_range.1 hj
    simp only [Function.comp]
    congr 1
    omega

/-! ## The trace (R146) -/

theorem length_engineTrace (g : Generator) (i : Nat) (sr : Word) (xs : List Bool) :
    (engineTrace g i sr xs).length = xs.length := by
  induction xs generalizing i sr with
  | nil => rfl
  | cons v vs ih => simp [engineTrace, ih]

theorem getElem_engineTrace (g : Generator) (i : Nat) (sr : Word) (xs : List Bool) (j : Nat) (ev : TraceEvent)
    (h : (engineTrace g i sr xs)[j]? = some ev) :
    ev.index = i + j ∧ some ev.input = xs[j]? ∧ ev.top = engineTop g (engineRun g sr (xs.take j)) ∧
      ev.sr = engineRun g sr (xs.take (j + 1)) := by
  induction xs generalizing i sr j with
  | nil => simp [engineTrace] at h
  | cons v vs ih =>
    cases j with
    | zero =>
      simp [engineTrace] at h; subst h
      exact ⟨rfl, rfl, rfl, rfl⟩
    | succ j =>
      obtain ⟨a, b, c, d⟩ := ih (i + 1) (engineStep g sr v) j (by simpa [engineTrace] using h)
      exact ⟨by omega, by simpa using b, c, d⟩

/-! ## The two outputs (R139 to R141) -/

/-- What a completed `crc.encode` leaves in its destination. -/
theorem runCrcEncode_out {s t : State} {d h : Handle} {gen : Word} {x : Buffer} (hi : s.Inv)
    (hr : runCrcEncode d h gen s = .ok t) (hx : t.slot d = some x) :
    ∃ b g, s.slot h = some b ∧ checkGenerator s.cfg gen = .ok g ∧
      x.bits s.cfg.bitOrder = b.bits s.cfg.bitOrder ++ bitsMsbFirst (crcResidue s.cfg g b) g.deg ∧ x.bl = b.bl + g.deg ∧
      x.res = crcResidue s.cfg g b := by
  obtain ⟨b, g, out, -, h2, -, h4, h5, h6, h7, rfl⟩ := runCrcEncode_ok.1 hr
  have ok := (hi.slot_ok h b h2).2
  simp only [State.slot_setRnz, State.slot_setSlot_self] at hx
  cases hx
  obtain ⟨p1, p2, p3, -⟩ := pushBits_ok hi.cfg_wf (Memory.wf_firstBytes _ ok.store_wf) h7
  refine ⟨b, g, h2, h5, ?_, ?_, p3⟩
  · rw [p1]; congr 1; exact bits_firstBytes _ b _ _
  · rw [p2]; simp [copyOf]

/-- What a completed `crc.decode` leaves in its destination, and in RNZ. -/
theorem runCrcDecode_out {s t : State} {d h : Handle} {gen : Word} {y : Buffer}
    (hr : runCrcDecode d h gen s = .ok t) (hy : t.slot d = some y) :
    ∃ b g, s.slot h = some b ∧ checkGenerator s.cfg gen = .ok g ∧ y.bits s.cfg.bitOrder = b.bits s.cfg.bitOrder ∧
      y.res = crcResidue s.cfg g b ∧ statusRnz t.status = decide (y.res ≠ 0) := by
  obtain ⟨b, g, -, h2, -, h4, h5, h6, rfl⟩ := runCrcDecode_ok.1 hr
  simp only [State.slot_setRnz, State.slot_setSlot_self] at hy
  cases hy
  exact ⟨b, g, h2, h5, bits_firstBytes _ b _ _, rfl, by rw [State.setRnz_status, statusRnz_setRnz]; rfl⟩

end Sys2Proof.Machine
end

