-- ==== Sys2Proof/Laws/Decode.lean ====
section
/-! SUPPORT. The fields of an encoded command word, that a word is determined by its fields, and what the
decoder can answer. -/

namespace Sys2Proof

theorem getLsbD_packWord (op : BitVec 4) (m : Bool) (d s : Handle) (i : Nat) :
    (packWord op m d s).getLsbD i =
      if i < 16 then false else if i < 20 then s.getLsbD (i - 16) else if i < 24 then d.getLsbD (i - 20)
      else if i < 27 then false else if i = 27 then m else if i < 32 then op.getLsbD (i - 28) else false := by
  by_cases hi : i < 32
  · unfold packWord
    simp only [BitVec.getLsbD_append]
    interval_cases i <;> simp
  · rw [BitVec.getLsbD_of_ge _ _ (Nat.le_of_not_lt hi)]
    simp [show ¬ i < 16 by omega, show ¬ i < 20 by omega, show ¬ i < 24 by omega, show ¬ i < 27 by omega,
      show ¬ i = 27 by omega, hi]

@[simp] theorem fieldOp_packWord (op : BitVec 4) (m : Bool) (d s : Handle) :
    fieldOp (packWord op m d s) = op := by
  apply BitVec.eq_of_getLsbD_eq
  intro i hi
  unfold fieldOp
  rw [BitVec.getLsbD_extractLsb', getLsbD_packWord]
  interval_cases i <;> simp

@[simp] theorem fieldM_packWord (op : BitVec 4) (m : Bool) (d s : Handle) :
    fieldM (packWord op m d s) = m := by
  unfold fieldM
  rw [getLsbD_packWord]
  simp

@[simp] theorem fieldRsv1_packWord (op : BitVec 4) (m : Bool) (d s : Handle) :
    fieldRsv1 (packWord op m d s) = 0#3 := by
  apply BitVec.eq_of_getLsbD_eq
  intro i hi
  unfold fieldRsv1
  rw [BitVec.getLsbD_extractLsb', getLsbD_packWord]
  interval_cases i <;> simp

@[simp] theorem fieldD_packWord (op : BitVec 4) (m : Bool) (d s : Handle) :
    fieldD (packWord op m d s) = d := by
  apply BitVec.eq_of_getLsbD_eq
  intro i hi
  unfold fieldD
  rw [BitVec.getLsbD_extractLsb', getLsbD_packWord]
  interval_cases i <;> simp

@[simp] theorem fieldS_packWord (op : BitVec 4) (m : Bool) (d s : Handle) :
    fieldS (packWord op m d s) = s := by
  apply BitVec.eq_of_getLsbD_eq
  intro i hi
  unfold fieldS
  rw [BitVec.getLsbD_extractLsb', getLsbD_packWord]
  interval_cases i <;> simp

@[simp] theorem fieldRsv0_packWord (op : BitVec 4) (m : Bool) (d s : Handle) :
    fieldRsv0 (packWord op m d s) = 0#16 := by
  apply BitVec.eq_of_getLsbD_eq
  intro i hi
  unfold fieldRsv0
  rw [BitVec.getLsbD_extractLsb', getLsbD_packWord]
  interval_cases i <;> simp

/-- A word whose reserved fields are 0 is its fields packed (R71). -/
theorem packWord_fields {w : Word} (h1 : fieldRsv1 w = 0#3) (h0 : fieldRsv0 w = 0#16) :
    packWord (fieldOp w) (fieldM w) (fieldD w) (fieldS w) = w := by
  apply BitVec.eq_of_getLsbD_eq
  intro i hi
  rw [getLsbD_packWord]
  have b1 : ∀ j, (fieldRsv1 w).getLsbD j = false := by intro j; rw [h1]; simp
  have b0 : ∀ j, (fieldRsv0 w).getLsbD j = false := by intro j; rw [h0]; simp
  simp only [fieldRsv1, fieldRsv0, BitVec.getLsbD_extractLsb'] at b1 b0
  simp only [fieldOp, fieldM, fieldD, fieldS, BitVec.getLsbD_extractLsb']
  split
  · next hlt => simpa [hlt] using (b0 i).symm
  · next h16 =>
    split
    · next hlt => simp [show i - 16 < 4 by omega, show 16 + (i - 16) = i by omega]
    · next h20 =>
      split
      · next hlt => simp [show i - 20 < 4 by omega, show 20 + (i - 20) = i by omega]
      · next h24 =>
        split
        · next hlt =>
          have := b1 (i - 24)
          simp [show i - 24 < 3 by omega, show 24 + (i - 24) = i by omega] at this
          exact this.symm
        · next h27 =>
          split
          · next e => subst e; rfl
          · next hne => simp [show i - 28 < 4 by omega, show 28 + (i - 28) = i by omega, hi]

/-! ## What the decoder can answer -/

@[simp] theorem fillOfM_mOfFill (f : Fill) : fillOfM (mOfFill f) = f := by cases f <;> rfl

@[simp] theorem mOfFill_fillOfM (m : Bool) : mOfFill (fillOfM m) = m := by cases m <;> rfl

/-- A decoded command is the one whose encoder gives that word, with the operands that were given where its
opcode takes them (R78, R79). -/
theorem decodeWord_ok {w imm : Word} {data : List Byte} {i : Instr} (h : decodeWord w imm data = .ok i) :
    cmdWord i = w ∧ opcodeRow i ∈ opcodeTable ∧
    ((operandWordCount w = 0 ∧ operandWords i = [] ∧ encodeData i = [] ∧ i.wellFormed = true) ∨
     (operandWordCount w = 1 ∧ (fieldOp w).toNat ≠ 1 ∧ operandWords i = [imm] ∧ encodeData i = [] ∧
        i.wellFormed = true) ∨
     (operandWordCount w = 1 ∧ (fieldOp w).toNat = 1 ∧ ∃ d, i = .fromBytes d data)) := by
  unfold decodeWord at h
  split at h
  · cases h
  next h1 =>
  split at h
  · cases h
  next h0 =>
  have hp := packWord_fields (w := w) (by simpa using h1) (by simpa using h0)
  have hlt := (fieldOp w).isLt
  unfold decodeOpcode at h
  have hop : fieldOp w = BitVec.ofNat 4 (fieldOp w).toNat := by simp
  generalize hk : (fieldOp w).toNat = k at h hlt hop
  unfold operandWordCount
  rw [hk]
  interval_cases k <;>
    simp only [unlessMode, unlessDestination, unlessSource] at h <;>
    first
    | (cases h; done)
    | (repeat' split at h) <;> cases h <;>
      simp_all [cmdWord, operandWords, encodeData, Instr.wellFormed, opcodeRow, opcodeTable]

/-- Whether a word is illegal, and why, does not depend on its operands (R75). -/
theorem decodeWord_error_indep {w imm imm' : Word} {data data' : List Byte} {why : Illegal}
    (h : decodeWord w imm data = .error why) : decodeWord w imm' data' = .error why := by
  unfold decodeWord at h ⊢
  split
  · next h1 => rw [if_pos h1] at h; exact h
  next h1 =>
  rw [if_neg h1] at h
  split
  · next h0 => rw [if_pos h0] at h; exact h
  next h0 =>
  rw [if_neg h0] at h
  unfold decodeOpcode at h ⊢
  have hlt := (fieldOp w).isLt
  generalize (fieldOp w).toNat = k at h hlt
  interval_cases k <;> simp only [unlessMode, unlessDestination, unlessSource] at h ⊢ <;>
    (repeat' split at h) <;> first | (cases h; done) | simp_all

/-- An illegal word at the front of the port is rejected at once, whatever stands behind it. -/
theorem decode_illegal {w : Word} {rest : List Word} {bytes : List Byte} {why : Illegal}
    (h : decodeWord w 0 [] = .error why) : decode (w :: rest) bytes = .illegal w why := by
  simp only [decode]
  cases arrived w rest bytes with
  | none => simp only [h]
  | some a => simp only [decodeWord_error_indep h]

theorem decode_illegal_head {ws : List Word} {bs : List Byte} {w : Word} {why : Illegal}
    (h : decode ws bs = .illegal w why) : ∃ rest, ws = w :: rest := by
  cases ws with
  | nil => simp [decode] at h
  | cons x rest =>
    simp only [decode] at h
    (repeat' split at h) <;> cases h <;> exact ⟨_, rfl⟩

end Sys2Proof
end

