-- ==== Sys2Proof/Laws/Injector.lean ====
section
/-! SUPPORT. The injector's writes, byte by byte (42_burst_injector.md R160 to R165). -/

namespace Sys2Proof.Machine

theorem getLsbD_partialMask (r p : Nat) (hr : r < 8) (hp : p < 8) :
    (partialMask r).getLsbD p = decide (8 - r ≤ p) := by
  interval_cases r <;> interval_cases p <;> decide

theorem getLsbD_fillByte (f : Fill) (p : Nat) (hp : p < 8) : (fillByte f).getLsbD p = decide (f = .high) := by
  cases f <;> interval_cases p <;> decide

/-- The `r` most significant bits of the partial byte are the fill, the others stay (R164). -/
theorem getLsbD_partialByte (f : Fill) (r p : Nat) (v : Byte) (hr : r < 8) (hp : p < 8) :
    (partialByte f r v).getLsbD p = if 8 - r ≤ p then decide (f = .high) else v.getLsbD p := by
  have h := getLsbD_partialMask r p hr hp
  cases f with
  | high =>
    simp only [partialByte, BitVec.getLsbD_or, h]
    generalize v.getLsbD p = e
    by_cases hh : 8 - r ≤ p <;> simp [hh]
  | low =>
    simp only [partialByte, BitVec.getLsbD_and, BitVec.getLsbD_not, h]
    generalize v.getLsbD p = e
    by_cases hh : 8 - r ≤ p <;> simp [hh, hp]

theorem mem_fillBytes {m : Memory} {off n : Nat} {v : Byte} {c : Host.Cell} (h : c ∈ fillBytes m off v n) :
    (off ≤ c.1 ∧ c.1 < off + n) ∨ c ∈ m := by
  induction n with
  | zero => exact .inr h
  | succ n ih =>
    rcases Memory.mem_write h with h | h
    · exact .inl (by omega)
    · rcases ih h with h | h
      · exact .inl (by omega)
      · exact .inr h

theorem wf_burstWrites {m : Memory} (len off : Nat) (z : BurstSize) (fill : Fill) (h : m.wf = true) :
    (burstWrites m len off z fill).wf = true := by
  unfold burstWrites
  dsimp only
  split
  · exact Memory.wf_write _ _ (Memory.wf_fillBytes _ _ _ h)
  · exact Memory.wf_fillBytes _ _ _ h

theorem mem_burstWrites {m : Memory} {len off : Nat} {z : BurstSize} {fill : Fill} {c : Host.Cell}
    (h : c ∈ burstWrites m len off z fill) : c.1 < len ∨ c ∈ m := by
  unfold burstWrites at h
  dsimp only at h
  split at h
  · rcases Memory.mem_write h with h | h
    · exact .inl (by omega)
    · rcases mem_fillBytes h with h | h
      · exact .inl (by omega)
      · exact .inr h
  · rcases mem_fillBytes h with h | h
    · exact .inl (by omega)
    · exact .inr h

/-- Every byte after a burst of `n` bits at the offset `off`. -/
theorem read_burstWrites {m : Memory} (hm : m.wf = true) (len off n : Nat) (f : Fill) (k : Nat) :
    (burstWrites m len off (burstSize n) f).read k =
      if off ≤ k ∧ k < off + n / 8 ∧ k < len then fillByte f
      else if k = off + n / 8 ∧ k < len ∧ 0 < n % 8 then partialByte f (n % 8) (m.read k) else m.read k := by
  have hw := Memory.wf_fillBytes off (fillByte f) (min (off + n / 8) len - off) hm
  have hrd := fun k => Memory.read_fillBytes (m := m) off (fillByte f) (min (off + n / 8) len - off) k hm
  have hrange : (off ≤ k ∧ k < off + (min (off + n / 8) len - off)) ↔ (off ≤ k ∧ k < off + n / 8 ∧ k < len) := by
    omega
  unfold burstWrites
  dsimp only
  split
  · next hp =>
    simp only [burstSize] at hp ⊢
    rw [Memory.read_write _ _ _ hw]
    by_cases hk : k = off + n / 8
    · rw [if_pos hk, if_neg (by omega), if_pos (by omega), hrd, if_neg (by omega), hk]
    · rw [if_neg hk, hrd, if_neg (by omega : ¬ (k = off + n / 8 ∧ _))]
      simp only [hrange]
  · next hp =>
    simp only [burstSize] at hp ⊢
    rw [hrd, if_neg (by omega : ¬ (k = off + n / 8 ∧ _))]
    simp only [hrange]

end Sys2Proof.Machine
end

