-- ==== Sys2Proof/Laws/Inv.lean ====
section
/-! SUPPORT. How each update of the state, and each way a buffer is made, keeps the invariant; what a command
makes of a buffer that stays; and the valid bits after a write. -/

namespace Sys2Proof.Machine

/-! ## Updates of the state -/

theorem State.Inv.setSlot {s : State} {h : Handle} {o : Option Buffer} (hi : s.Inv)
    (ho : ∀ b, o = some b → h.toNat < s.cfg.nslots ∧ b.Ok s.cfg) : (s.setSlot h o).Inv := by
  refine ⟨hi.cfg_wf, fun k b hb => ?_, hi.status_reserved, hi.no_fault, hi.fault_cause⟩
  rw [State.slot_setSlot] at hb
  split at hb
  · next e => subst e; exact ho b hb
  · exact hi.slot_ok k b hb

theorem State.Inv.setResult {s : State} (v : Word) (hi : s.Inv) : (s.setResult v).Inv :=
  ⟨hi.1, hi.2, hi.3, hi.4, hi.5⟩

theorem State.Inv.countDraw {s : State} (hi : s.Inv) : s.countDraw.Inv := ⟨hi.1, hi.2, hi.3, hi.4, hi.5⟩

theorem State.Inv.setRnz {s : State} (v : Bool) (hi : s.Inv) : (s.setRnz v).Inv :=
  ⟨hi.1, hi.2, by simpa using hi.3, by simpa using hi.4, by simpa using hi.5⟩

theorem State.Inv.takeFault {s : State} (c : Cause) (w : Word) (hi : s.Inv) :
    (Sys2Proof.Machine.takeFault c w s).Inv :=
  ⟨hi.1, hi.2, by simpa using hi.3, by simp, fun _ => ⟨c, by simp⟩⟩

theorem State.Inv.ports {s : State} (ws : List Word) (bs : List Byte) (hi : s.Inv) :
    ({ s with cmdPort := ws, dataPort := bs } : State).Inv := ⟨hi.1, hi.2, hi.3, hi.4, hi.5⟩

theorem State.Inv.retire {s : State} (ws : List Word) (bs : List Byte) (hi : s.Inv) : (s.retire ws bs).Inv := by
  unfold State.retire
  split <;> exact ⟨hi.1, hi.2, hi.3, hi.4, hi.5⟩

theorem State.setSlot_setSlot (s : State) (d : Handle) (o o' : Option Buffer) :
    (s.setSlot d o).setSlot d o' = s.setSlot d o' := by
  apply State.ext_slots <;> first | rfl | skip
  intro h; rw [State.slot_setSlot, State.slot_setSlot, State.slot_setSlot]; split <;> rfl

/-! ## Buffers -/

theorem Buffer.Ok.copyOf {c : Config} {b : Buffer} (hb : b.Ok c) (r : Word) (hr : r.toNat < 2 ^ 31)
    (hs : crcOutputSize b.bl ≤ c.maxSlotBytes) : (Sys2Proof.Machine.copyOf b r).Ok c := by
  have e : crcOutputSize b.bl = max (2 * ((b.bl + 7) / 8)) 1 := rfl
  refine ⟨?_, hs, ?_, ?_, Memory.wf_firstBytes _ hb.store_wf, ?_, hr⟩
  · simp only [Sys2Proof.Machine.copyOf, e]; omega
  · simp only [Sys2Proof.Machine.copyOf, Buffer.cap, e]; omega
  · simp only [Sys2Proof.Machine.copyOf, Buffer.cap, e]; omega
  · intro cell hc
    have := (Memory.mem_firstBytes hc).2
    simp only [Sys2Proof.Machine.copyOf, e, ceilDiv8] at this ⊢
    omega

theorem Buffer.Ok.push {c : Config} (hc : c.wf) {b : Buffer} {sb : Nat} {v : Bool} (hb : b.Ok c)
    (hg : growBytes c (b.bl + 1) (b.bl + 1) b.sb = .ok sb) :
    ({ b with sb := sb, store := b.store.bitWrite c.bitOrder b.bl v, bl := b.bl + 1 } : Buffer).Ok c := by
  obtain ⟨h1, h2, k, h3, -⟩ := growBytes_ok hc hg
  have hle : b.sb ≤ sb := by rw [h3]; exact Nat.le_mul_of_pos_right _ (Nat.two_pow_pos k)
  have := hb.size_pos
  have := hb.size_max
  have := hb.length_le
  refine ⟨?_, ?_, ?_, ?_, Memory.wf_bitWrite _ _ _ hb.store_wf, ?_, hb.res_lt⟩ <;> simp only [Buffer.cap] at *
  · omega
  · omega
  · omega
  · omega
  · intro cell hc
    rcases Memory.mem_bitWrite hc with h | h
    · omega
    · have := hb.store_lt cell h; omega

theorem Buffer.Ok.pushBits {c : Config} (hc : c.wf) {vs : List Bool} {b out : Buffer} (hb : b.Ok c)
    (h : Sys2Proof.Machine.pushBits c b vs = .ok out) : out.Ok c := by
  induction vs generalizing b with
  | nil => cases h; exact hb
  | cons v vs ih =>
    simp only [Sys2Proof.Machine.pushBits] at h
    obtain ⟨b1, h1, h2⟩ := bind_eq_ok.1 h
    obtain ⟨sb, hg, rfl⟩ := pushBuffer_ok.1 h1
    exact ih (hb.push hc hg) h2

theorem Buffer.getElem?_bits {o : BitOrder} {b : Buffer} {j : Nat} (h : j < b.bl) :
    (b.bits o)[j]? = some (b.store.bitRead o j) := by
  simp only [Buffer.bits]
  rw [List.getElem?_map, List.getElem?_range h]; rfl

theorem Buffer.bits_bitWrite {b : Buffer} (o : BitOrder) (i : Nat) (v : Bool) (h : b.store.wf = true) :
    ({ b with store := b.store.bitWrite o i v } : Buffer).bits o = (b.bits o).set i v := by
  apply List.ext_getElem
  · simp
  · intro j h1 h2
    rw [Buffer.getElem_bits, Memory.bitRead_bitWrite _ _ _ _ h, List.getElem_set]
    by_cases e : i = j
    · simp [e]
    · rw [if_neg (fun x => e x.symm), if_neg e, Buffer.getElem_bits]

/-! ## A buffer that stays -/

/-- What a completed command makes of a buffer that stays: the same, or what `set_bit`, `push_bit`, `pop_bit`
or `inject_burst` on its own slot makes of it (10_state.md R23 to R26). -/
theorem runOf_buffer {i : Instr} {s t : State} {h : Handle} {b b' : Buffer} (hr : runOf i s = .ok t)
    (hb : s.slot h = some b) (hb' : t.slot h = some b') :
    b' = b ∨
    (∃ index v, i = .setBit h index v ∧ index.toNat < b.cap ∧
      b' = { b with store := b.store.bitWrite s.cfg.bitOrder index.toNat v }) ∨
    (∃ v sb, i = .pushBit h v ∧ growBytes s.cfg (b.bl + 1) (b.bl + 1) b.sb = .ok sb ∧
      b' = { b with sb := sb, store := b.store.bitWrite s.cfg.bitOrder b.bl v, bl := b.bl + 1 }) ∨
    (i = .popBit h ∧ b.bl ≠ 0 ∧ b' = { b with bl := b.bl - 1 }) ∨
    (∃ n fill, i = .injectBurst h n fill ∧
      b' = { b with store := burstWrites b.store (ceilDiv8 b.bl) (burstOffset s b n.toNat)
                      (burstSize n.toNat) fill }) := by
  cases i <;> simp only [runOf] at hr
  · obtain ⟨_, h2, -, rfl⟩ := runFromBytes_ok.1 hr
    rw [State.slot_setSlot] at hb'; split at hb' <;> simp_all
  · obtain ⟨_, h2, -, rfl⟩ := runNewEmpty_ok.1 hr
    rw [State.slot_setSlot] at hb'; split at hb' <;> simp_all
  · obtain ⟨b', -, h2, -, ⟨-, rfl⟩ | ⟨-, rfl⟩⟩ := runGetBit_ok.1 hr <;> simp_all
  · obtain ⟨b1, -, h2, h3, rfl⟩ := runSetBit_ok.1 hr
    rw [State.slot_setSlot] at hb'
    split at hb'
    · next e =>
      subst e; rw [hb] at h2; cases h2; cases hb'
      exact .inr (.inl ⟨_, _, rfl, h3, rfl⟩)
    · rw [hb] at hb'; cases hb'; exact .inl rfl
  · obtain ⟨b1, sb, -, h2, h3, rfl⟩ := runPushBit_ok.1 hr
    rw [State.slot_setSlot] at hb'
    split at hb'
    · next e =>
      subst e; rw [hb] at h2; cases h2; cases hb'
      exact .inr (.inr (.inl ⟨_, _, rfl, h3, rfl⟩))
    · rw [hb] at hb'; cases hb'; exact .inl rfl
  · obtain ⟨b1, -, h2, h3, rfl⟩ := runPopBit_ok.1 hr
    rw [State.slot_setResult, State.slot_setSlot] at hb'
    split at hb'
    · next e =>
      subst e; rw [hb] at h2; cases h2; cases hb'
      exact .inr (.inr (.inr (.inl ⟨rfl, h3, rfl⟩)))
    · rw [hb] at hb'; cases hb'; exact .inl rfl
  · obtain ⟨b', -, h2, rfl⟩ := runFree_ok.1 hr
    rw [State.slot_setSlot] at hb'; split at hb' <;> simp_all
  · obtain ⟨b', -, h2, rfl⟩ := runGetLen_ok.1 hr; simp_all
  · obtain ⟨b', -, h2, rfl⟩ := runGetCap_ok.1 hr; simp_all
  · obtain ⟨b', -, h2, rfl⟩ := runGetResidue_ok.1 hr; simp_all
  · obtain ⟨_, _, _, -, -, -, h4, -, -, -, rfl⟩ := runCrcEncode_ok.1 hr
    rw [State.slot_setRnz, State.slot_setSlot] at hb'; split at hb' <;> simp_all
  · obtain ⟨_, _, -, -, -, h4, -, -, rfl⟩ := runCrcDecode_ok.1 hr
    rw [State.slot_setRnz, State.slot_setSlot] at hb'; split at hb' <;> simp_all
  · rename_i g n fill
    obtain ⟨b1, -, h2, h3⟩ := runInjectBurst_ok.1 hr
    have : t.slot h = (injectAt g b1 n.toNat (burstOffset s b1 n.toNat) fill s).slot h := by
      rcases h3 with ⟨-, rfl⟩ | ⟨-, rfl⟩ <;> rfl
    rw [this] at hb'
    simp only [injectAt, State.slot_setSlot] at hb'
    split at hb'
    · next e =>
      subst e; rw [hb] at h2; cases h2; cases hb'
      exact .inr (.inr (.inr (.inr ⟨_, _, rfl, rfl⟩)))
    · rw [hb] at hb'; cases hb'; exact .inl rfl

end Sys2Proof.Machine
end

