-- ==== Sys2Proof/Laws/PerInstr.lean ====
section
/-! SUPPORT. Statements about every command as syntax, one lemma a constructor. Family `TableMatch`: the
encoder's word of the command is a word of the command's row of the opcode table (30_encoding.md R79,
R80), and of no other row. -/

namespace Sys2Proof.Laws.TableMatch

/-- The command's word matches the command's row, which is a row of the table, and no other row. -/
def Statement (i : Instr) : Prop :=
  opcodeRow i ∈ opcodeTable ∧ ∀ r ∈ opcodeTable, r.matches (cmdWord i) = true ↔ r = opcodeRow i

/-- The rows that a word matches, given by the row it is to match alone. -/
def matchesOnly (w : Word) (row : OpcodeRow) : Bool :=
  opcodeTable.all fun r => r.matches w == decide (r = row)

theorem of_row {i : Instr} (h : opcodeRow i ∈ opcodeTable)
    (hm : matchesOnly (cmdWord i) (opcodeRow i) = true) : Statement i := by
  refine ⟨h, fun r hr => ?_⟩
  have := List.all_eq_true.1 hm r hr
  simp only [beq_iff_eq] at this
  rw [this, decide_eq_true_iff]

/-- The words of an opcode that uses `D` alone, `S` alone, or both match one row (R80). -/
theorem matchesOnly_of_d : ∀ d : Handle,
    matchesOnly (packWord 0x1 false d 0) ⟨0x10000000, 0xFF0FFFFF⟩ = true ∧
    matchesOnly (packWord 0x2 false d 0) ⟨0x20000000, 0xFF0FFFFF⟩ = true := by decide +kernel

theorem matchesOnly_of_s : ∀ s : Handle,
    matchesOnly (packWord 0x3 false 0 s) ⟨0x30000000, 0xFFF0FFFF⟩ = true ∧
    matchesOnly (packWord 0x6 false 0 s) ⟨0x60000000, 0xFFF0FFFF⟩ = true ∧
    matchesOnly (packWord 0x7 false 0 s) ⟨0x70000000, 0xFFF0FFFF⟩ = true ∧
    matchesOnly (packWord 0x8 false 0 s) ⟨0x80000000, 0xFFF0FFFF⟩ = true ∧
    matchesOnly (packWord 0x9 false 0 s) ⟨0x90000000, 0xFFF0FFFF⟩ = true ∧
    matchesOnly (packWord 0xA false 0 s) ⟨0xA0000000, 0xFFF0FFFF⟩ = true := by decide +kernel

theorem matchesOnly_of_s_m : ∀ (s : Handle) (m : Bool),
    matchesOnly (packWord 0x4 m 0 s) ⟨0x40000000, 0xF7F0FFFF⟩ = true ∧
    matchesOnly (packWord 0x5 m 0 s) ⟨0x50000000, 0xF7F0FFFF⟩ = true ∧
    matchesOnly (packWord 0xC m 0 s) ⟨0xC0000000, 0xF7F0FFFF⟩ = true := by decide +kernel

theorem matchesOnly_of_d_s : ∀ d s : Handle,
    matchesOnly (packWord 0xB false d s) ⟨0xB0000000, 0xFF00FFFF⟩ = true ∧
    matchesOnly (packWord 0xB true d s) ⟨0xB8000000, 0xFF00FFFF⟩ = true := by decide +kernel

theorem fromBytes (d : Handle) (data : List Byte) : Statement (.fromBytes d data) :=
  of_row (by simp [opcodeRow, opcodeTable]) (matchesOnly_of_d d).1

theorem newEmpty (d : Handle) (capBits : Word) : Statement (.newEmpty d capBits) :=
  of_row (by simp [opcodeRow, opcodeTable]) (matchesOnly_of_d d).2

theorem getBit (s : Handle) (index : Word) : Statement (.getBit s index) :=
  of_row (by simp [opcodeRow, opcodeTable]) (matchesOnly_of_s s).1

theorem setBit (s : Handle) (index : Word) (v : Bool) : Statement (.setBit s index v) :=
  of_row (by simp [opcodeRow, opcodeTable]) (matchesOnly_of_s_m s v).1

theorem pushBit (s : Handle) (v : Bool) : Statement (.pushBit s v) :=
  of_row (by simp [opcodeRow, opcodeTable]) (matchesOnly_of_s_m s v).2.1

theorem popBit (s : Handle) : Statement (.popBit s) :=
  of_row (by simp [opcodeRow, opcodeTable]) (matchesOnly_of_s s).2.1

theorem free (s : Handle) : Statement (.free s) :=
  of_row (by simp [opcodeRow, opcodeTable]) (matchesOnly_of_s s).2.2.1

theorem getLen (s : Handle) : Statement (.getLen s) :=
  of_row (by simp [opcodeRow, opcodeTable]) (matchesOnly_of_s s).2.2.2.1

theorem getCap (s : Handle) : Statement (.getCap s) :=
  of_row (by simp [opcodeRow, opcodeTable]) (matchesOnly_of_s s).2.2.2.2.1

theorem getResidue (s : Handle) : Statement (.getResidue s) :=
  of_row (by simp [opcodeRow, opcodeTable]) (matchesOnly_of_s s).2.2.2.2.2

theorem crcEncode (d s : Handle) (gen : Word) : Statement (.crcEncode d s gen) :=
  of_row (by simp [opcodeRow, opcodeTable]) (matchesOnly_of_d_s d s).1

theorem crcDecode (d s : Handle) (gen : Word) : Statement (.crcDecode d s gen) :=
  of_row (by simp [opcodeRow, opcodeTable]) (matchesOnly_of_d_s d s).2

theorem injectBurst (s : Handle) (burstBits : Word) (fill : Fill) : Statement (.injectBurst s burstBits fill) :=
  of_row (by simp [opcodeRow, opcodeTable]) (matchesOnly_of_s_m s (mOfFill fill)).2.2

end Sys2Proof.Laws.TableMatch
end

