-- ==== Sys2Proof/Laws/Step.lean ====
section
/-! SUPPORT. What a step can do, and that a command does not read the ports. -/

namespace Sys2Proof.Machine

theorem step_halted {s : State} (hs : s.halted = true) : step s = .next s := by unfold step; simp [hs]

theorem step_command {s t : State} {i : Instr} {words : List Word} {bytes : List Byte} (hs : s.halted = false)
    (hd : decode s.cmdPort s.dataPort = .command i words bytes) (he : exec i s = .next t) :
    step s = .next (t.retire words bytes) := by
  unfold step; simp [hs, hd, he, mapNext]

/-- The four things a step can do: nothing, the block being halted; nothing, no whole command having arrived;
the fault of an illegal word; a command. -/
theorem step_cases (s : State) :
    (s.halted = true ∧ step s = .next s) ∨
    (s.halted = false ∧ decode s.cmdPort s.dataPort = .waiting ∧ step s = .next s) ∨
    (∃ w why, s.halted = false ∧ decode s.cmdPort s.dataPort = .illegal w why ∧
      step s = .next (takeFault .illegalCmd w s).takeWord) ∨
    (∃ i words bytes t, s.halted = false ∧ decode s.cmdPort s.dataPort = .command i words bytes ∧
      exec i s = .next t ∧ step s = .next (t.retire words bytes)) := by
  cases hs : s.halted with
  | true => exact .inl ⟨rfl, step_halted hs⟩
  | false =>
    cases hd : decode s.cmdPort s.dataPort with
    | waiting => exact .inr (.inl ⟨rfl, rfl, by unfold step; simp [hs, hd]⟩)
    | illegal w why => exact .inr (.inr (.inl ⟨w, why, rfl, rfl, by unfold step; simp [hs, hd]⟩))
    | command i words bytes =>
      obtain ⟨t, ht⟩ := finish_exists i s (runOf i s)
      rw [← exec_eq_finish] at ht
      exact .inr (.inr (.inr ⟨i, words, bytes, t, rfl, rfl, ht, step_command hs hd ht⟩))

/-- A state that a step leaves alone is left alone by any number of steps. -/
theorem run_of_step_self {s : State} (h : step s = .next s) (n : Nat) : core.run n s = .next s := by
  induction n with
  | zero => rfl
  | succ n ih => simp only [Host.Core.run, show core.step s = .next s from h]; exact ih

/-- One step to a state that a step leaves alone is where any positive number of steps ends. -/
theorem run_of_step {s t : State} (h : step s = .next t) (ht : step t = .next t) {n : Nat} (hn : 0 < n) :
    core.run n s = .next t := by
  obtain ⟨n, rfl⟩ := Nat.exists_eq_succ_of_ne_zero (Nat.ne_of_gt hn)
  simp only [Host.Core.run, show core.step s = .next t from h]; exact run_of_step_self ht n

/-- Nothing is done while the command port is empty (70_reset_and_hazards.md R211). -/
theorem step_idle {s : State} (h : s.cmdPort = []) : step s = .next s := by
  unfold step; simp [h, decode]

/-- A run goes on from a step that leaves the port empty or the block halted. -/
theorem hostRun_cons {s t : State} {x : HostInput} (h : step (hostInput x s) = .next t)
    (hp : 0 < (hostInput x s).cmdPort.length) (ht : t.halted = true ∨ t.cmdPort = []) (rest : List HostInput) :
    hostRun (x :: rest) s = hostRun rest t := by
  have hs : step t = .next t := ht.elim step_halted step_idle
  simp only [hostRun, takeArrived, run_of_step h hs hp]

/-- The state with other contents on its ports. -/
def withPorts (ws : List Word) (bs : List Byte) (s : State) : State := { s with cmdPort := ws, dataPort := bs }

theorem runOf_withPorts (i : Instr) (s : State) (ws : List Word) (bs : List Byte) :
    runOf i (withPorts ws bs s) = (runOf i s).map (withPorts ws bs) := by
  have cS : ∀ h, checkS (withPorts ws bs s) h = checkS s h := fun _ => rfl
  have cD : ∀ h, checkD (withPorts ws bs s) h = checkD s h := fun _ => rfl
  have hc : (withPorts ws bs s).cfg = s.cfg := rfl
  have hdr : (withPorts ws bs s).draws = s.draws := rfl
  cases i <;>
    simp only [runOf, runFromBytes, runNewEmpty, runGetBit, runSetBit, runPushBit, runPopBit, runFree,
      runGetLen, runGetCap, runGetResidue, runCrcEncode, runCrcDecode, runInjectBurst, cS, cD, hc, hdr, bind,
      Except.bind] <;>
    (repeat' split) <;> rfl

/-- A command does not read the ports. -/
theorem exec_withPorts (i : Instr) (s : State) (ws : List Word) (bs : List Byte) :
    exec i (withPorts ws bs s) = mapNext (withPorts ws bs) (exec i s) := by
  rw [exec_eq_finish, exec_eq_finish, runOf_withPorts]
  cases runOf i s <;> rfl

/-- A command that leaves the block running outside the halted state has completed. -/
theorem runOf_of_exec {i : Instr} {s t : State} (hs : s.halted = false) (he : exec i s = .next t)
    (ht : t.halted = false) : runOf i s = .ok t := by
  rcases exec_halted hs he with ⟨-, h⟩ | ⟨h, -⟩
  · exact h
  · rw [ht] at h; cases h

end Sys2Proof.Machine
end

