-- ==== Sys2Proof/Tests/Slice0.lean ====
section
/-! SUPPORT. The model's own tests: the WellFormed smoke test, command words written out from the encoding,
one-step tests whose expected results are the vectors of spec 95_test_vectors.md (named in each comment),
and for every obligation with hypotheses a witness that meets them. -/

namespace Sys2Proof.Tests

open Sys2Proof Sys2Proof.Machine

/-! The tests are elaborated one after another: side by side their threads' stacks pass the memory limit. -/
set_option Elab.async false

/-! ## WellFormed -/

/-- A `from_bytes` of 2^32 bytes has no operand word (30_encoding.md R76). -/
theorem test_wellFormed_refuses_too_many_bytes :
    (Instr.fromBytes 0 (List.replicate (2 ^ 32) 0)).wellFormed = false :=
  have key : ∀ data : List Byte, data.length = 2 ^ 32 → (Instr.fromBytes 0 data).wellFormed = false :=
    fun _ h => decide_eq_false (by rw [h]; exact Nat.lt_irrefl _)
  key _ List.length_replicate

theorem test_wellFormed_accepts_a_byte : (Instr.fromBytes 0 [0x41]).wellFormed = true := by decide

/-! ## Decoding, on words written out from 30_encoding.md R71 and 95_test_vectors.md L2 -/

/-- `OP = 1, D = 0, IMM0 = 3`: three data bytes (R77). -/
theorem test_decode_from_bytes :
    decode [0x10000000, 3, 0x60000000] [0x12, 0x34, 0xFF, 0x00]
      = .command (.fromBytes 0 [0x12, 0x34, 0xFF]) [0x60000000] [0x00] := by decide

theorem test_decode_waits_for_operand_and_data :
    decode [] [] = .waiting ∧ decode [0x20000000] [] = .waiting ∧ decode [0x10000000, 3] [0x12, 0x34] = .waiting := by
  decide

theorem test_decode_buffer_commands :
    decode [0x10F00000, 0] [] = .command (.fromBytes 15 []) [] [] ∧
    decode [0x20300000, 8] [] = .command (.newEmpty 3 8) [] [] ∧
    decode [0x30040000, 4] [] = .command (.getBit 4 4) [] [] ∧
    decode [0x40020000, 7] [] = .command (.setBit 2 7 false) [] [] ∧
    decode [0x48020000, 7] [] = .command (.setBit 2 7 true) [] [] ∧
    decode [0x50030000] [] = .command (.pushBit 3 false) [] [] ∧
    decode [0x58030000] [] = .command (.pushBit 3 true) [] [] ∧
    decode [0x60030000] [] = .command (.popBit 3) [] [] := by decide

theorem test_decode_query_and_engine_commands :
    decode [0x70000000] [] = .command (.free 0) [] [] ∧
    decode [0x80010000] [] = .command (.getLen 1) [] [] ∧
    decode [0x90040000] [] = .command (.getCap 4) [] [] ∧
    decode [0xA00F0000] [] = .command (.getResidue 15) [] [] ∧
    decode [0xB0100000, 0x18005] [] = .command (.crcEncode 1 0 0x18005) [] [] ∧
    decode [0xB8210000, 0x18005] [] = .command (.crcDecode 2 1 0x18005) [] [] ∧
    decode [0xC8050000, 12] [] = .command (.injectBurst 5 12 .high) [] [] ∧
    decode [0xC0050000, 12] [] = .command (.injectBurst 5 12 .low) [] [] := by decide

/-- The illegal words of the table, each with its condition of R75. -/
theorem test_decode_illegal_words :
    decode [0x00000000] [] = .illegal 0x00000000 .reservedOpcode ∧
    decode [0xD0000000] [] = .illegal 0xD0000000 .reservedOpcode ∧
    decode [0xE0000000] [] = .illegal 0xE0000000 .reservedOpcode ∧
    decode [0xF0000000] [] = .illegal 0xF0000000 .reservedOpcode ∧
    decode [0x18000000] [] = .illegal 0x18000000 .modeUnused ∧
    decode [0x10010000] [] = .illegal 0x10010000 .sourceUnused ∧
    decode [0x30100000] [] = .illegal 0x30100000 .destinationUnused ∧
    decode [0x68000000] [] = .illegal 0x68000000 .modeUnused := by decide

theorem test_decode_more_illegal_words :
    decode [0x30000001] [] = .illegal 0x30000001 .reservedField0 ∧
    decode [0x31000000] [] = .illegal 0x31000000 .reservedField1 ∧
    decode [0xBF000000] [] = .illegal 0xBF000000 .reservedField1 ∧
    decode [0xB0108000] [] = .illegal 0xB0108000 .reservedField0 ∧
    decode [0xC0150000] [] = .illegal 0xC0150000 .destinationUnused ∧
    decode [0x88010000] [] = .illegal 0x88010000 .modeUnused := by decide

/-- R81, R82: the printer and the two pseudo-instructions (P6). -/
theorem test_assembler :
    asm (.crcEncode 1 0 3) = "crc.encode b1, b0, 3" ∧
    fromText 0 ['1', '1', '0', '\n', 'x'] =
      some [.newEmpty 0 8, .pushBit 0 true, .pushBit 0 true, .pushBit 0 false] ∧
    fromText 0 ['1', '2'] = none ∧
    crcRoundtrip 1 2 0 0xB = [.crcEncode 1 0 0xB, .crcDecode 2 1 0xB] := by decide +kernel

/-! ## States for the tests -/

/-- Every command gives a state (60_exceptions.md R187): the one `exec` gives. -/
def execd (i : Instr) (s : State) : State :=
  match exec i s with
  | .next t => t
  | .fault _ => s
  | .refused _ => s

theorem exec_execd (i : Instr) (s : State) : exec i s = .next (execd i s) := by
  obtain ⟨t, ht⟩ := finish_exists i s (runOf i s)
  rw [← exec_eq_finish] at ht
  unfold execd; rw [ht]

/-- The state after one step. -/
def stepd (s : State) : State :=
  match step s with
  | .next t => t
  | .fault _ => s
  | .refused _ => s

theorem step_stepd (s : State) : step s = .next (stepd s) := by
  unfold stepd
  rcases step_cases s with ⟨-, h⟩ | ⟨-, -, h⟩ | ⟨w, why, -, -, h⟩ | ⟨i, a, b, t, -, -, -, h⟩ <;> rw [h]

/-- The state after one step on a submitted command. -/
def run1 (i : Instr) (s : State) : State := stepd (hostSubmit i s)

/-- An instance of 4 slots of at most 4 bytes. -/
def small : Config := { nslots := 4, maxSlotBytes := 4, hostBigEndian := true, traceEvents := true }

/-- The message "A" of the vectors: `01000001`, CAP 16 (V-BB-1). -/
def bufA : Buffer := { sb := 2, store := [(0, 0x41)], bl := 8, res := 0 }

/-- The codeword of "A" with generator 0x18005: `41 01 86`, CAP 32, RES 0x186 (P1). -/
def bufCode : Buffer := { sb := 4, store := [(0, 0x41), (1, 0x01), (2, 0x86)], bl := 24, res := 0x186 }

/-- The bits `1011` (V-BB-11). -/
def bufBits : Buffer := { sb := 1, store := [(0, 0xB0)], bl := 4, res := 0 }

/-- A buffer with no bits, CAP 8. -/
def bufEmpty : Buffer := { sb := 1, store := [], bl := 0, res := 0 }

/-- The reset block with a buffer in slot 0. -/
def holding (c : Config) (b : Buffer) : State := (State.resetWith c).setSlot 0 (some b)

theorem bufA_ok : bufA.Ok Config.standard := by constructor <;> decide
theorem bufA_ok_small : bufA.Ok small := by constructor <;> decide
theorem bufCode_ok : bufCode.Ok Config.standard := by constructor <;> decide
theorem bufCode_ok_small : bufCode.Ok small := by constructor <;> decide
theorem bufBits_ok : bufBits.Ok Config.standard := by constructor <;> decide
theorem bufEmpty_ok : bufEmpty.Ok Config.standard := by constructor <;> decide

theorem resetWith_inv {c : Config} (hc : c.wf) : (State.resetWith c).Inv := by
  refine ⟨hc, fun h b hb => ?_, by simp [State.resetWith, statusReserved],
    fun _ => by simp [State.resetWith, statusCause], fun h => ?_⟩
  · rw [State.slot_resetWith] at hb; cases hb
  · simp [State.halted, State.resetWith, statusFault] at h

theorem holding_inv {c : Config} {b : Buffer} (hc : c.wf) (hb : b.Ok c) : (holding c b).Inv :=
  (resetWith_inv hc).setSlot fun b' e => by cases e; exact ⟨hc.2.1, hb⟩

theorem standard_wf : Config.standard.wf := by decide
theorem small_wf : small.wf := by decide

/-! ## BitBuffer commands (95_test_vectors.md V-BB) -/

/-- V-BB-3. -/
theorem test_from_bytes :
    (run1 (.fromBytes 0 [0x12, 0x34, 0xFF]) State.reset).slot 0 =
      some { sb := 6, store := [(0, 0x12), (1, 0x34), (2, 0xFF)], bl := 24, res := 0 } := by decide +kernel

/-- V-BB-17: STATUS 0x07, FAULT_CMD 0x10000000, the old buffer kept; the operand word and byte stay (R184). -/
theorem test_from_bytes_slot_in_use :
    run1 (.fromBytes 0 [0x00]) (holding .standard bufA) =
      { holding .standard bufA with status := 0x07, faultCmd := 0x10000000, cmdPort := [1], dataPort := [0] } := by
  decide +kernel

/-- V-BB-4. -/
theorem test_new_empty_capacities :
    [0, 1, 8, 9, 64, 65].map (fun n => ((run1 (.newEmpty 0 n) State.reset).slot 0).map Buffer.cap) =
      [some 8, some 8, some 8, some 16, some 64, some 72] := by decide +kernel

/-- V-BB-19. -/
theorem test_new_empty_too_large : (run1 (.newEmpty 0 0xFFFFFFFF) State.reset).status = 0x0B := by decide +kernel

/-- V-BB-5. -/
theorem test_get_bit :
    [0, 1, 7].map (fun i => (run1 (.getBit 0 i) (holding .standard bufA)).result) = [0, 1, 1] := by
  decide +kernel

/-- V-BB-7, and V-BB-6's "no fault". -/
theorem test_get_bit_out_of_capacity :
    (run1 (.getBit 0 16) (holding .standard bufA)).status = 0x0F ∧
    (run1 (.getBit 0 16) (holding .standard bufA)).faultCmd = 0x30000000 ∧
    (run1 (.getBit 0 8) (holding .standard bufA)).status = 0 := by decide +kernel

/-- V-BB-8, V-BB-9. -/
theorem test_set_bit :
    (run1 (.setBit 0 7 false) (holding .standard bufA)).slot 0 = some { bufA with store := [(0, 0x40)] } ∧
    ((run1 (.setBit 0 15 true) (holding .standard bufA)).slot 0).map (Buffer.bits .msbFirst) =
      some (bufA.bits .msbFirst) := by
  decide +kernel

/-- V-BB-10. -/
theorem test_set_bit_out_of_capacity :
    (run1 (.setBit 0 16 true) (holding .standard bufA)).status = 0x0F ∧
    (run1 (.setBit 0 16 true) (holding .standard bufA)).faultCmd = 0x48000000 := by decide +kernel

/-- V-BB-12: the seventh, thirteenth and twenty-fifth bits grow the buffer, the ones before do not. -/
theorem test_push_bit_grows :
    [(1, 5), (1, 6), (2, 11), (2, 12), (4, 23), (4, 24)].map (fun (x : Nat × Nat) =>
      ((run1 (.pushBit 0 true) (holding .standard ⟨x.1, [], x.2, 0⟩)).slot 0).map Buffer.cap) =
      [some 8, some 16, some 16, some 32, some 32, some 64] := by decide +kernel

/-- V-BB-21: the push overwrites the popped position. -/
theorem test_push_bit_overwrites :
    (run1 (.pushBit 0 false) (holding .standard { bufBits with bl := 3 })).slot 0 =
      some { bufBits with store := [(0, 0xA0)] } := by decide +kernel

/-- V-BB-13. -/
theorem test_pop_bit :
    (run1 (.popBit 0) (holding .standard bufBits)).result = 1 ∧
    (run1 (.popBit 0) (holding .standard bufBits)).slot 0 = some { bufBits with bl := 3 } := by decide +kernel

/-- V-BB-14. -/
theorem test_pop_bit_empty :
    (run1 (.popBit 0) (holding .standard bufEmpty)).status = 0x0D ∧
    (run1 (.popBit 0) (holding .standard bufEmpty)).faultCmd = 0x60000000 := by decide +kernel

/-- V-BB-15, V-BB-16. -/
theorem test_free :
    run1 (.free 0) (holding .standard bufA) = State.reset ∧
    (run1 (.free 0) State.reset).status = 0x05 ∧ (run1 (.free 0) State.reset).faultCmd = 0x70000000 := by
  decide +kernel

/-- V-BB-18, V-BB-20. -/
theorem test_get_len :
    (run1 (.getLen 0) (holding .standard bufA)).result = 8 ∧
    (run1 (.getLen 5) (State.resetWith small)).status = 0x05 := by decide +kernel

/-- V-BB-18. -/
theorem test_get_cap : (run1 (.getCap 0) (holding .standard bufA)).result = 16 := by decide +kernel

/-- P1 step 5's shape: RESULT is RES. -/
theorem test_get_residue : (run1 (.getResidue 0) (holding .standard bufCode)).result = 0x186 := by decide +kernel

/-! ## CRC engine (V-CRC) -/

/-- V-CRC-0. -/
theorem test_generator_masks :
    checkGenerator .standard 0x18005 = .ok ⟨16, 0xFFFF, 0x8005⟩ ∧
    checkGenerator .standard 0x8005 = .ok ⟨15, 0x7FFF, 0x0005⟩ ∧
    checkGenerator .standard 0x80000001 = .ok ⟨31, 0x7FFFFFFF, 1⟩ ∧ checkGenerator .standard 0x2 = .ok ⟨1, 1, 0⟩ := by
  constructor
  · rfl
  · exact ⟨rfl, rfl, rfl⟩

/-- P1 step 2: the codeword of "A", RES 0x186, RNZ 1. -/
theorem test_crc_encode :
    (run1 (.crcEncode 1 0 0x18005) (holding .standard bufA)).slot 1 = some bufCode ∧
    (run1 (.crcEncode 1 0 0x18005) (holding .standard bufA)).status = 0x20 := by decide +kernel

/-- V-CRC-1, row "A", through every generator; on a big-endian host too (R137). -/
theorem test_crc_encode_residues :
    [0x3, 0x7, 0x6, 0xB, 0x8005, 0x04C11DB7, 0x80000001, 0xFFFFFFFF, 0x2, 0x80000000].map (fun gen =>
      ((run1 (.crcEncode 1 0 gen) (holding { Config.standard with hostBigEndian := true } bufA)).slot 1).map
        Buffer.res) =
      [0, 0, 0, 0x7, 0x145, 0x14BF6A4, 0x41, 0x7FFFFFDF, 0, 0].map some := by decide +kernel

/-- P1 step 3: the decode of the codeword. -/
theorem test_crc_decode :
    (run1 (.crcDecode 1 0 0x18005) (holding .standard bufCode)).slot 1 = some { bufCode with sb := 6, res := 0 } ∧
    (run1 (.crcDecode 1 0 0x18005) (holding .standard bufCode)).status = 0 := by decide +kernel

/-- L1.1: the codeword with bit 0 flipped decodes to 0x8A03; V-CRC-7: the faults in their priority. -/
theorem test_crc_decode_flip_and_faults :
    ((run1 (.crcDecode 1 0 0x18005)
      (holding .standard { bufCode with store := [(0, 0xC1), (1, 0x01), (2, 0x86)] })).slot 1).map Buffer.res
        = some 0x8A03 ∧
    (run1 (.crcDecode 1 0 1) { holding .standard bufA with status := 0x20 }).status = 0x29 ∧
    (run1 (.crcDecode 0 0 1) (holding .standard bufA)).status = 0x07 ∧
    (run1 (.crcDecode 1 5 0) (holding .standard bufA)).status = 0x05 := by decide +kernel

/-- V-CRC-2: the step trace of `101` with generator 0x7. -/
theorem test_trace :
    traceOf (.crcEncode 1 0 0x7) (holding { Config.standard with traceEvents := true } ⟨1, [(0, 0xA0)], 3, 0⟩) =
      [⟨0, true, false, 1⟩, ⟨1, false, false, 2⟩, ⟨2, true, true, 2⟩, ⟨3, false, true, 3⟩,
       ⟨4, false, true, 1⟩] := by decide +kernel

/-- V-CRC-11. -/
theorem test_reverse_bytes :
    reverseBytes 0x12345678 = 0x78563412 ∧ reverseBytes 0x000001A6 = 0xA6010000 ∧
    reverseBytes 0xFF000000 = 0x000000FF := by decide

/-! ## Injector (V-INJ) -/

/-- The content bytes after a burst on the bytes `m` at the offset `off`. -/
def burst (m : List Byte) (off n : Nat) (fill : Fill) : List Byte :=
  (List.range m.length).map
    (burstWrites (Memory.ofBytes 0 m) m.length off (burstSize n) fill).read

/-- V-INJ-1, 2, 4, 6, 7, 8, 9, 13, 15 at their offsets. -/
theorem test_burst_bytes :
    burst [0, 0, 0, 0] 0 12 .high = [0xFF, 0xF0, 0, 0] ∧ burst [0, 0, 0, 0] 1 12 .high = [0, 0xFF, 0xF0, 0] ∧
    burst [0xFF, 0xFF, 0xFF, 0xFF] 1 12 .low = [0xFF, 0x00, 0x0F, 0xFF] ∧
    burst [0, 0] 0 3 .high = [0xE0, 0] ∧ burst [0x0F, 0x0F, 0x0F] 1 5 .high = [0x0F, 0xFF, 0x0F] ∧
    burst [0] 0 20 .high = [0xFF] ∧ burst [0x0F, 0x0F, 0x0F] 2 0 .high = [0x0F, 0x0F, 0x0F] ∧
    burst [0xAA, 0xAA, 0xAA, 0xAA, 0xAA] 1 17 .low = [0xAA, 0, 0, 0x2A, 0xAA] ∧
    burst [0x41, 0x01, 0x86] 1 1 .high = [0x41, 0x81, 0x86] ∧ burst [0, 0] 0 9 .high = [0xFF, 0x80] := by
  decide +kernel

/-- X of V-INJ-1, 7, 8, 16 (R162); a free target faults with FAULT_CMD 0xC8070000. -/
theorem test_inject_burst_range_and_fault :
    lastOffset ⟨8, [], 32, 0⟩ 12 = 1 ∧ lastOffset ⟨2, [], 8, 0⟩ 20 = -3 ∧ lastOffset ⟨6, [], 24, 0⟩ 0 = 2 ∧
    lastOffset bufEmpty 12 = -3 ∧
    (run1 (.injectBurst 7 4 .high) State.reset).status = 0x05 ∧
    (run1 (.injectBurst 7 4 .high) State.reset).faultCmd = 0xC8070000 := by decide +kernel

/-! ## Faults and reset (V-F) -/

/-- V-F-1, V-F-2, V-F-3, V-F-4. -/
theorem test_illegal_word_halts_until_reset :
    stepd (hostWord 0 State.reset) = { State.reset with status := 0x03 } ∧
    stepd (hostWord 0xD0000000 State.reset) = { State.reset with status := 0x03, faultCmd := 0xD0000000 } ∧
    (run1 (.fromBytes 0 [0x41]) (stepd (hostWord 0 State.reset))).slot 0 = none ∧
    hostReset (stepd (hostWord 0xD0000000 State.reset)) = State.reset := by decide +kernel

/-- R219: a `get_bit` of a FREE slot, whose operand word stays on the port, and an illegal word: each run has
ended and failed, also after more input. -/
theorem test_run_that_faults :
    hostRun [.command (.getBit 0 1)] State.reset =
      .next { State.reset with status := 0x05, faultCmd := 0x30000000, cmdPort := [1] } ∧
    (run1 (.getBit 0 1) State.reset).runEnded = true ∧ (run1 (.getBit 0 1) State.reset).runSucceeded = false ∧
    hostRun [.word 0, .byte 7, .command (.newEmpty 0 8)] State.reset =
      .next { State.reset with status := 0x03, cmdPort := [0x20000000, 8], dataPort := [7] } := by
  refine ⟨?_, by decide +kernel, by decide +kernel, ?_⟩ <;> rfl

/-- R219: a command still partly received ends no run; its last byte lets it run. -/
theorem test_run_word_by_word :
    (hostWord 1 (hostWord 0x10000000 State.reset)).runEnded = false ∧
    hostRun [.word 0x10000000, .word 1, .byte 0x41] State.reset =
      .next (holding .standard bufA) := ⟨by decide +kernel, rfl⟩

/-- A command given as one table number runs as the first one after reset. -/
theorem test_withFetchWord :
    (stepd (State.reset.withFetchWord 64 0x0000000820300000)).slot 3 = some ⟨1, [], 0, 0⟩ := by decide +kernel

/-! ## Witnesses: for every obligation with hypotheses, a case that meets them -/

theorem witness_DecodeOfEncodeIsTheCommand :
    (Instr.fromBytes 15 []).wellFormed = true ∧ (Instr.injectBurst 0 0xFFFFFFFF .low).wellFormed = true := by decide

theorem witness_DecodedInputIsTheEncoding :
    decode [0x10000000, 1, 7] [0x41, 0x42] = .command (.fromBytes 0 [0x41]) [7] [0x42] := by decide

/-- The second clause; the six conditions are met by the words of `test_decode_illegal_words`. -/
theorem witness_IllegalWordsAreThoseOfTheSixConditions :
    (hostWord 0x30000001 State.reset).halted = false ∧ (hostWord 0x30000001 State.reset).cmdPort = [0x30000001] ∧
    decodeWord 0x30000001 0 [] = .error .reservedField0 ∧ decodeWord 0x18000000 0 [] = .error .modeUnused := by
  decide

theorem witness_DecodeAgreesWithTheTable :
    ⟨0xC0000000, 0xF7F0FFFF⟩ ∈ opcodeTable ∧ OpcodeRow.matches ⟨0xC0000000, 0xF7F0FFFF⟩ 0xC80F0000 = true := by
  decide

/-- A command that completes, and one that faults. -/
theorem witness_StepRunsTheDecodedCommand :
    (hostSubmit (.getLen 0) State.reset).halted = false ∧
    decode (hostSubmit (.getLen 0) State.reset).cmdPort (hostSubmit (.getLen 0) State.reset).dataPort
      = .command (.getLen 0) [] [] ∧
    exec (.getLen 0) (hostSubmit (.getLen 0) State.reset)
      = .next (execd (.getLen 0) (hostSubmit (.getLen 0) State.reset)) ∧
    (execd (.getLen 0) (hostSubmit (.getLen 0) State.reset)).halted = true ∧
    (execd (.newEmpty 0 0) State.reset).halted = false :=
  ⟨by decide, by decide, exec_execd _ _, by decide +kernel, by decide +kernel⟩

theorem witness_SubmittedCommandRunsNext :
    State.reset.halted = false ∧ State.reset.cmdPort = [] ∧ State.reset.dataPort = [] ∧
    (Instr.fromBytes 0 [0x41]).wellFormed = true ∧
    exec (.fromBytes 0 [0x41]) State.reset = .next (execd (.fromBytes 0 [0x41]) State.reset) ∧
    exec (.getBit 0 1) State.reset = .next (execd (.getBit 0 1) State.reset) ∧
    (execd (.getBit 0 1) State.reset).halted = true :=
  ⟨by decide, rfl, rfl, by decide, exec_execd _ _, exec_execd _ _, by decide +kernel⟩

theorem witness_BlockWaitsForAWholeCommand :
    State.reset.halted = false ∧ State.reset.cmdPort = [] ∧
    operandWords (.newEmpty 3 0) ≠ [] ∧ (hostWord (cmdWord (.newEmpty 3 0)) State.reset).cmdPort = [cmdWord (.newEmpty 3 0)] ∧
    (Instr.fromBytes 0 [0x41]).wellFormed = true ∧
    ({ State.reset with cmdPort := encode (.fromBytes 0 [0x41]) } : State).dataPort.length
      < (encodeData (.fromBytes 0 [0x41])).length := by decide

/-- A block halted by the word 0. -/
def stopped : State := { State.reset with status := 0x03 }

theorem witness_HaltedBlockIgnoresAllButReset : stopped.halted = true := by decide

theorem witness_ResetHasTheInvariant :
    Config.wf { nslots := 1, maxSlotBytes := 1, hostBigEndian := false, traceEvents := false } ∧
    Config.wf { nslots := 16, maxSlotBytes := 2 ^ 28, hostBigEndian := true, traceEvents := true } := by decide

theorem witness_EveryStepKeepsTheInvariant :
    (holding .standard bufA).Inv ∧ step (holding .standard bufA) = .next (stepd (holding .standard bufA)) :=
  ⟨holding_inv standard_wf bufA_ok, step_stepd _⟩

/-- `new_empty b0, 0`, submitted word by word and run. -/
theorem witness_ReachableBuffersAreWithinCapacity :
    small.wf ∧ Reachable small (stepd (hostWord 0 (hostWord 0x20000000 (State.resetWith small)))) ∧
    (stepd (hostWord 0 (hostWord 0x20000000 (State.resetWith small)))).slot 0 = some bufEmpty :=
  ⟨small_wf, .step (.word _ (.word _ .reset)) (step_stepd _), by decide +kernel⟩

theorem witness_FaultEntryIsPrecise :
    (hostSubmit (.popBit 9) State.reset).halted = false ∧
    step (hostSubmit (.popBit 9) State.reset) = .next (run1 (.popBit 9) State.reset) ∧
    (run1 (.popBit 9) State.reset).halted = true ∧ statusReserved (hostSubmit (.popBit 9) State.reset).status = 0 :=
  ⟨by decide, step_stepd _, by decide +kernel, by decide⟩

theorem witness_FaultsAreThoseOfTheTable :
    State.reset.halted = false ∧ exec (.popBit 9) State.reset = .next (execd (.popBit 9) State.reset) ∧
    (execd (.popBit 9) State.reset).halted = true :=
  ⟨by decide, exec_execd _ _, by decide +kernel⟩

/-- Both ways: the number NSLOTS itself, and a FREE slot below it. -/
theorem witness_UnallocatedSourceIsBadHandle :
    (State.resetWith small).halted = false ∧ source (.getLen 4) = some 4 ∧
    (State.resetWith small).cfg.nslots ≤ (4 : Handle).toNat ∧
    source (.crcEncode 0 3 0) = some 3 ∧ (State.resetWith small).slot 3 = none := by decide +kernel

theorem witness_UnusableDestinationFaults :
    (holding small bufA).halted = false ∧ destination (.crcDecode 4 0 7) = some 4 ∧
    source (.crcDecode 4 0 7) = some 0 ∧ (0 : Handle).toNat < (holding small bufA).cfg.nslots ∧
    (holding small bufA).slot 0 = some bufA ∧ (holding small bufA).cfg.nslots ≤ (4 : Handle).toNat ∧
    destination (.newEmpty 0 8) = some 0 ∧ source (.newEmpty 0 8) = none := by decide +kernel

theorem witness_GeneratorBelowTwoIsBadGenerator :
    (holding small bufA).halted = false ∧ (0 : Handle).toNat < (holding small bufA).cfg.nslots ∧
    (holding small bufA).slot 0 = some bufA ∧ (3 : Handle).toNat < (holding small bufA).cfg.nslots ∧
    (holding small bufA).slot 3 = none ∧ (0 : Word).toNat < 2 ∧ (1 : Word).toNat < 2 := by decide +kernel

theorem witness_AccessOutsideTheBufferFaults :
    (holding small bufEmpty).halted = false ∧ (0 : Handle).toNat < (holding small bufEmpty).cfg.nslots ∧
    (holding small bufEmpty).slot 0 = some bufEmpty ∧ bufEmpty.cap ≤ (8 : Word).toNat ∧ bufEmpty.bl = 0 := by
  decide +kernel

theorem top_16 : ∀ j, 16 < j → (0x18005 : Word).getLsbD j = false := by
  intro j hj
  by_cases h : j < 32
  · interval_cases j <;> decide
  · exact BitVec.getLsbD_of_ge _ _ (Nat.le_of_not_lt h)

/-- An instance of one slot of at most 4 bytes. -/
def single : Config := { nslots := 1, maxSlotBytes := 4, hostBigEndian := false, traceEvents := false }

/-- The constructors, with no slot allocated: 3 data bytes and 33 bits past 4 bytes in the one slot, and
V-BB-19 at `State.reset`. -/
theorem witness_StorageBeyondTheLimitIsAllocFail :
    (State.resetWith single).cfg.wf ∧ (State.resetWith single).halted = false ∧
    (0 : Handle).toNat < (State.resetWith single).cfg.nslots ∧ (State.resetWith single).slot 0 = none ∧
    single.maxSlotBytes < max (2 * [(0 : Byte), 0, 0].length) 1 ∧
    single.maxSlotBytes < max (((33 : Word).toNat + 7) / 8) 1 ∧
    State.reset.cfg.wf ∧ State.reset.slot 0 = none ∧
    State.reset.cfg.maxSlotBytes < max (((0xFFFFFFFF : Word).toNat + 7) / 8) 1 := by decide +kernel

/-- A push on 24 bits in the one slot of 4 bytes, no slot being free. -/
theorem witness_StorageBeyondTheLimit_push :
    (holding single bufCode).Inv ∧ (holding single bufCode).halted = false ∧
    (holding single bufCode).slot 0 = some bufCode ∧
    3 * bufCode.cap < 4 * (bufCode.bl + 1) ∧ single.maxSlotBytes < 2 * bufCode.sb :=
  ⟨holding_inv (by decide) (by constructor <;> decide), by decide +kernel⟩

/-- A decode of 24 bits, with 4 bytes a slot. -/
theorem witness_StorageBeyondTheLimit_decode :
    (holding small bufCode).Inv ∧ (holding small bufCode).halted = false ∧
    (1 : Handle).toNat < (holding small bufCode).cfg.nslots ∧ (holding small bufCode).slot 1 = none ∧
    (holding small bufCode).slot 0 = some bufCode ∧ (0x18005 : Word).getLsbD 16 = true ∧
    (∀ j, 16 < j → (0x18005 : Word).getLsbD j = false) ∧
    small.maxSlotBytes < max (2 * ((bufCode.bl + 7) / 8)) 1 :=
  ⟨holding_inv small_wf bufCode_ok_small, by decide +kernel, by decide +kernel, by decide +kernel,
    by decide +kernel, by decide, top_16, by decide⟩

/-- An encode of "A" with a generator of degree 17, after which 25 bits overfill 4 bytes. -/
theorem witness_StorageBeyondTheLimit_encode :
    (holding small bufA).Inv ∧ (holding small bufA).slot 0 = some bufA ∧
    (∀ j, 17 < j → (0x20000 : Word).getLsbD j = false) ∧ (0x20000 : Word).getLsbD 17 = true ∧
    ∀ k, max (2 * ((bufA.bl + 7) / 8)) 1 * 2 ^ k ≤ small.maxSlotBytes →
      3 * (8 * (max (2 * ((bufA.bl + 7) / 8)) 1 * 2 ^ k)) < 4 * (bufA.bl + 17) := by
  refine ⟨holding_inv small_wf bufA_ok_small, by decide +kernel, fun j hj => ?_, by decide, fun k hk => ?_⟩
  · by_cases h : j < 32
    · interval_cases j <;> decide
    · exact BitVec.getLsbD_of_ge _ _ (Nat.le_of_not_lt h)
  · have e : max (2 * ((bufA.bl + 7) / 8)) 1 = 2 := by decide
    have m : small.maxSlotBytes = 4 := rfl
    have b : bufA.bl = 8 := rfl
    rw [e, m] at hk
    rw [e, b]
    omega

theorem witness_FaultCmdIsWrittenOnlyAtFaultEntry :
    State.reset.Inv ∧ step State.reset = .next (stepd State.reset) ∧
    (hostWord 0xD0000000 State.reset).Inv ∧ (hostWord 0xD0000000 State.reset).halted = false ∧
    (stepd (hostWord 0xD0000000 State.reset)).halted = true ∧
    (stepd (hostWord 0xD0000000 State.reset)).faultCmd ≠ (hostWord 0xD0000000 State.reset).faultCmd :=
  ⟨resetWith_inv standard_wf, step_stepd _, (resetWith_inv standard_wf).ports _ _, by decide, by decide +kernel,
    by decide +kernel⟩

theorem witness_FromBytesCreatesTheBuffer :
    (State.resetWith small).cfg.wf ∧ (State.resetWith small).halted = false ∧ (3 : Handle).toNat < (State.resetWith small).cfg.nslots ∧
    (State.resetWith small).slot 3 = none ∧
    max (2 * [(0x41 : Byte), 0x42].length) 1 ≤ (State.resetWith small).cfg.maxSlotBytes := by decide +kernel

theorem witness_NewEmptyCreatesZeroedStorage :
    (State.resetWith small).halted = false ∧ (3 : Handle).toNat < (State.resetWith small).cfg.nslots ∧
    (State.resetWith small).slot 3 = none ∧
    max (((32 : Word).toNat + 7) / 8) 1 ≤ (State.resetWith small).cfg.maxSlotBytes := by decide +kernel

/-- The last valid bit, the first bit above BL, and the last below CAP. -/
theorem witness_GetBitReadsTheBit :
    (holding small bufA).halted = false ∧ (0 : Handle).toNat < (holding small bufA).cfg.nslots ∧
    (holding small bufA).slot 0 = some bufA ∧
    (bufA.bits .msbFirst)[(7 : Word).toNat]? = some true ∧ (7 : Word).toNat < bufA.cap ∧
    bufA.bl ≤ (8 : Word).toNat ∧ (8 : Word).toNat < bufA.cap ∧ (15 : Word).toNat < bufA.cap := by decide +kernel

theorem witness_SetBitWritesOneBit :
    (holding small bufA).Inv ∧ (holding small bufA).halted = false ∧ (holding small bufA).slot 0 = some bufA ∧
    (15 : Word).toNat < bufA.cap :=
  ⟨holding_inv small_wf bufA_ok_small, by decide +kernel⟩

/-- No growth needed; growth allowed (6 bits, and one more, in one byte). -/
theorem witness_PushBitAppendsOneBit :
    (holding small bufA).Inv ∧ (holding small bufA).halted = false ∧ (holding small bufA).slot 0 = some bufA ∧
    4 * (bufA.bl + 1) ≤ 3 * bufA.cap ∧ 2 * bufA.sb ≤ small.maxSlotBytes ∧
    3 * (Buffer.cap ⟨1, [], 6, 0⟩) < 4 * (6 + 1) ∧ Buffer.Ok small ⟨1, [], 6, 0⟩ :=
  ⟨holding_inv small_wf bufA_ok_small, by decide +kernel, by decide +kernel, by decide, by decide, by decide,
    by constructor <;> decide⟩

theorem witness_PopBitReturnsTheLastBit :
    (holding small bufBits).halted = false ∧ (0 : Handle).toNat < (holding small bufBits).cfg.nslots ∧
    (holding small bufBits).slot 0 = some bufBits ∧ bufBits.bits .msbFirst = [true, false, true] ++ [true] := by
  decide +kernel

theorem witness_FreeReleasesTheSlot :
    (holding small bufA).halted = false ∧ (0 : Handle).toNat < (holding small bufA).cfg.nslots ∧
    (holding small bufA).slot 0 = some bufA := by decide +kernel

theorem witness_QueriesReturnTheFields :
    (holding small bufCode).Inv ∧ (holding small bufCode).halted = false ∧
    (holding small bufCode).slot 0 = some bufCode :=
  ⟨holding_inv small_wf bufCode_ok_small, by decide +kernel⟩

/-- The generators at the ends of the two clauses. -/
theorem witness_GeneratorDegreeAndMasks :
    Config.standard.wf ∧ (1 : Word).toNat < 2 ∧ 2 ≤ (2 : Word).toNat ∧ 2 ≤ (0xFFFFFFFF : Word).toNat := by decide

theorem witness_RegisterStaysWithinItsWidth :
    Config.standard.wf ∧ checkGenerator .standard 0xFFFFFFFF = .ok ⟨31, 0x7FFFFFFF, 0x7FFFFFFF⟩ := ⟨standard_wf, rfl⟩

/-- "A" with 0x18005 fits exactly: 24 bits, 3/4 of 4 bytes, one doubling. -/
theorem witness_EncodeAppendsTheResidue :
    (holding small bufA).Inv ∧ (holding small bufA).halted = false ∧ (holding small bufA).slot 0 = some bufA ∧
    (1 : Handle).toNat < (holding small bufA).cfg.nslots ∧ (holding small bufA).slot 1 = none ∧
    (0x18005 : Word).getLsbD 16 = true ∧ (∀ j, 16 < j → (0x18005 : Word).getLsbD j = false) ∧
    4 * (bufA.bl + 16) ≤ 3 * (8 * (max (2 * ((bufA.bl + 7) / 8)) 1 * 2 ^ 1)) ∧
    max (2 * ((bufA.bl + 7) / 8)) 1 * 2 ^ 1 ≤ (holding small bufA).cfg.maxSlotBytes :=
  ⟨holding_inv small_wf bufA_ok_small, by decide +kernel, by decide +kernel, by decide +kernel, by decide +kernel,
    by decide, top_16, by decide, by decide⟩

theorem witness_DecodeCopiesAndVerifies :
    (holding .standard bufCode).Inv ∧ (holding .standard bufCode).halted = false ∧
    (holding .standard bufCode).slot 0 = some bufCode ∧
    (15 : Handle).toNat < (holding .standard bufCode).cfg.nslots ∧ (holding .standard bufCode).slot 15 = none ∧
    (0x18005 : Word).getLsbD 16 = true ∧ (∀ j, 16 < j → (0x18005 : Word).getLsbD j = false) ∧
    max (2 * ((bufCode.bl + 7) / 8)) 1 ≤ (holding .standard bufCode).cfg.maxSlotBytes :=
  ⟨holding_inv standard_wf bufCode_ok, by decide +kernel, by decide +kernel, by decide +kernel, by decide +kernel,
    by decide, top_16, by decide⟩

/-- A command that completes and one that faults. -/
theorem witness_CrcWritesOnlyDestinationAndRnz :
    (holding .standard bufA).halted = false ∧ isCrc (.crcEncode 1 0 0x18005) = true ∧
    source (.crcEncode 1 0 0x18005) = some 0 ∧ destination (.crcEncode 1 0 0x18005) = some 1 ∧
    exec (.crcEncode 1 0 0x18005) (holding .standard bufA)
      = .next (execd (.crcEncode 1 0 0x18005) (holding .standard bufA)) ∧
    (execd (.crcEncode 1 0 0x18005) (holding .standard bufA)).halted = false ∧
    (execd (.crcDecode 0 0 0x18005) (holding .standard bufA)).halted = true :=
  ⟨by decide +kernel, rfl, rfl, rfl, exec_execd _ _, by decide +kernel, by decide +kernel⟩

theorem witness_ResidueIsThePolynomialRemainder :
    small.wf ∧ checkGenerator small 0x3 = .ok ⟨1, 1, 1⟩ := ⟨small_wf, rfl⟩

/-- The block after `crc.encode b1, b0, 0x18005` on "A". -/
def encoded : State := execd (.crcEncode 1 0 0x18005) (holding .standard bufA)

theorem witness_RoundTripHasResidueZero :
    (holding .standard bufA).Inv ∧ (holding .standard bufA).halted = false ∧
    exec (.crcEncode 1 0 0x18005) (holding .standard bufA) = .next encoded ∧ encoded.halted = false ∧
    exec (.crcDecode 2 1 0x18005) encoded = .next (execd (.crcDecode 2 1 0x18005) encoded) ∧
    (execd (.crcDecode 2 1 0x18005) encoded).halted = false ∧
    ((execd (.crcDecode 2 1 0x18005) encoded).slot 2).isSome = true :=
  ⟨holding_inv standard_wf bufA_ok, by decide +kernel, exec_execd _ _, by decide +kernel, exec_execd _ _,
    by decide +kernel, by decide +kernel⟩

/-- The empty message, encoded twice. -/
theorem witness_EncodingLengthDeterminismAndEmptyMessage :
    (holding .standard bufEmpty).Inv ∧ (holding .standard bufEmpty).halted = false ∧
    checkGenerator .standard 0xB = .ok ⟨3, 7, 3⟩ ∧ (holding .standard bufEmpty).slot 0 = some bufEmpty ∧ bufEmpty.bl = 0 ∧
    (execd (.crcEncode 1 0 0xB) (holding .standard bufEmpty)).halted = false ∧
    ((execd (.crcEncode 1 0 0xB) (holding .standard bufEmpty)).slot 1).isSome = true ∧
    (execd (.crcEncode 2 0 0xB) (execd (.crcEncode 1 0 0xB) (holding .standard bufEmpty))).halted = false ∧
    ((execd (.crcEncode 2 0 0xB) (execd (.crcEncode 1 0 0xB) (holding .standard bufEmpty))).slot 2).isSome = true :=
  ⟨holding_inv standard_wf bufEmpty_ok, by decide +kernel, rfl, by decide +kernel, rfl, by decide +kernel,
    by decide +kernel, by decide +kernel, by decide +kernel⟩

/-- The last bit of the codeword, which is 0, set to 1. -/
theorem witness_SingleBitFlipIsDetected :
    (holding .standard bufA).Inv ∧ (holding .standard bufA).halted = false ∧
    (0x18005 : Word).getLsbD 0 = true ∧ (0x18005 : Word).getLsbD 2 = true ∧
    exec (.crcEncode 1 0 0x18005) (holding .standard bufA) = .next encoded ∧ encoded.halted = false ∧
    encoded.slot 1 = some bufCode ∧ (bufCode.bits .msbFirst)[(23 : Word).toNat]? = some false ∧
    (execd (.setBit 1 23 true) encoded).halted = false ∧
    (execd (.crcDecode 2 1 0x18005) (execd (.setBit 1 23 true) encoded)).halted = false ∧
    ((execd (.crcDecode 2 1 0x18005) (execd (.setBit 1 23 true) encoded)).slot 2).isSome = true :=
  ⟨holding_inv standard_wf bufA_ok, by decide +kernel, by decide, by decide, exec_execd _ _, by decide +kernel,
    by decide +kernel, by decide +kernel, by decide +kernel, by decide +kernel, by decide +kernel⟩

theorem witness_MonomialGeneratorGivesResidueZero :
    Config.standard.wf ∧ checkGenerator .standard (1#32 <<< 1) = .ok ⟨1, 1, 0⟩ ∧
    checkGenerator .standard (1#32 <<< 31) = .ok ⟨31, 0x7FFFFFFF, 0⟩ :=
  ⟨standard_wf, rfl, rfl⟩

theorem witness_TraceFollowsTheEngineAndChangesNothing :
    (holding small bufA).halted = false ∧ (holding small bufA).cfg.traceEvents = true ∧
    isCrc (.crcDecode 1 0 0xB) = true ∧ source (.crcDecode 1 0 0xB) = some 0 ∧
    operandWords (.crcDecode 1 0 0xB) = [0xB] ∧ (holding small bufA).slot 0 = some bufA ∧
    checkGenerator small 0xB = .ok ⟨3, 7, 3⟩ ∧
    exec (.crcDecode 1 0 0xB) (holding small bufA) = .next (execd (.crcDecode 1 0 0xB) (holding small bufA)) ∧
    (execd (.crcDecode 1 0 0xB) (holding small bufA)).halted = false ∧
    ((traceOf (.crcDecode 1 0 0xB) (holding small bufA))[10]?).isSome = true :=
  ⟨by decide +kernel, rfl, rfl, rfl, rfl, by decide +kernel, rfl, exec_execd _ _, by decide +kernel,
    by decide +kernel⟩

/-- X ≥ 0 at its boundary X = 0, and X = -1. -/
theorem witness_InjectBurstOverwritesTheBurst :
    (holding .standard bufCode).Inv ∧ (holding .standard bufCode).halted = false ∧
    (holding .standard bufCode).slot 0 = some bufCode ∧
    lastOffset bufCode 16 = 0 ∧ lastOffset bufCode 17 = -1 :=
  ⟨holding_inv standard_wf bufCode_ok, by decide +kernel⟩

/-- A byte that a `set_bit` stores to, the next one, and a byte of another slot. -/
theorem witness_EveryOtherStorageByteIsUnchanged :
    (holding .standard bufA).Inv ∧ (holding .standard bufA).halted = false ∧
    exec (.setBit 0 7 false) (holding .standard bufA) = .next (execd (.setBit 0 7 false) (holding .standard bufA)) ∧
    storesTo (.setBit 0 7 false) (holding .standard bufA) 0 0 ∧
    ¬ storesTo (.setBit 0 7 false) (holding .standard bufA) 0 1 ∧
    ¬ storesTo (.setBit 0 7 false) (holding .standard bufA) 1 0 := by
  refine ⟨holding_inv standard_wf bufA_ok, by decide +kernel, exec_execd _ _, ⟨rfl, rfl⟩, ?_, ?_⟩
  · rintro ⟨-, h⟩; exact absurd h (by decide)
  · rintro ⟨h, -⟩; exact absurd h (by decide)

theorem witness_EveryOtherRegisterAndSlotIsUnchanged :
    (holding .standard bufA).halted = false ∧
    exec (.pushBit 0 true) (holding .standard bufA) = .next (execd (.pushBit 0 true) (holding .standard bufA)) ∧
    destination (.pushBit 0 true) ≠ some 1 ∧ source (.pushBit 0 true) ≠ some 1 ∧
    writesResult (.pushBit 0 true) = false ∧ isCrc (.pushBit 0 true) = false ∧
    (execd (.pushBit 0 true) (holding .standard bufA)).halted = false :=
  ⟨by decide +kernel, exec_execd _ _, by decide, by decide, rfl, rfl, by decide +kernel⟩

/-- A slot that becomes ALLOC, and one that becomes FREE. -/
theorem witness_SlotsAreAllocatedAndFreedOnlyByTheirCommands :
    (holding .standard bufA).halted = false ∧
    (holding .standard bufA).slot 1 = none ∧
    (execd (.newEmpty 1 8) (holding .standard bufA)).slot 1 = some bufEmpty ∧
    (holding .standard bufA).slot 0 = some bufA ∧
    (execd (.free 0) (holding .standard bufA)).slot 0 = none ∧
    exec (.free 0) (holding .standard bufA) = .next (execd (.free 0) (holding .standard bufA)) :=
  ⟨by decide +kernel, by decide +kernel, by decide +kernel, by decide +kernel, by decide +kernel, exec_execd _ _⟩

/-- The last valid bit changed by a `set_bit`. -/
theorem witness_BufferFieldsChangeOnlyByTheirCommands :
    (holding .standard bufA).Inv ∧ (holding .standard bufA).halted = false ∧
    exec (.setBit 0 7 false) (holding .standard bufA) = .next (execd (.setBit 0 7 false) (holding .standard bufA)) ∧
    (holding .standard bufA).slot 0 = some bufA ∧
    (execd (.setBit 0 7 false) (holding .standard bufA)).slot 0 = some { bufA with store := [(0, 0x40)] } ∧
    7 < bufA.bl ∧ (Buffer.bits .msbFirst { bufA with store := [(0, 0x40)] })[7]? ≠ (bufA.bits .msbFirst)[7]? :=
  ⟨holding_inv standard_wf bufA_ok, by decide +kernel, exec_execd _ _, by decide +kernel, by decide +kernel,
    by decide, by decide +kernel⟩

/-- Each clause: no query, a fault, a query that completes. -/
theorem witness_ResultIsWrittenOnlyByTheFiveQueries :
    (holding .standard bufA).halted = false ∧ writesResult (.setBit 0 0 true) = false ∧
    exec (.getLen 0) (holding .standard bufA) = .next (execd (.getLen 0) (holding .standard bufA)) ∧
    (holding .standard bufA).slot 0 = some bufA ∧
    (execd (.getLen 0) (holding .standard bufA)).halted = false ∧
    (execd (.popBit 0) (holding .standard bufA)).halted = false ∧
    (execd (.getCap 0) (holding .standard bufA)).halted = false ∧
    (execd (.getResidue 0) (holding .standard bufA)).halted = false ∧
    (execd (.getLen 1) (holding .standard bufA)).halted = true :=
  ⟨by decide +kernel, rfl, exec_execd _ _, by decide +kernel, by decide +kernel, by decide +kernel,
    by decide +kernel, by decide +kernel, by decide +kernel⟩

/-- Each clause: a CRC command that completes, one that faults, another command. -/
theorem witness_RnzIsWrittenOnlyByCompletedCrcCommands :
    (holding .standard bufA).halted = false ∧ isCrc (.crcDecode 1 0 7) = true ∧
    exec (.crcDecode 1 0 7) (holding .standard bufA) = .next (execd (.crcDecode 1 0 7) (holding .standard bufA)) ∧
    (execd (.crcDecode 1 0 7) (holding .standard bufA)).halted = false ∧
    (execd (.crcDecode 1 0 1) (holding .standard bufA)).halted = true ∧ isCrc (.getLen 0) = false :=
  ⟨by decide +kernel, rfl, exec_execd _ _, by decide +kernel, by decide +kernel, rfl⟩

/-- A `get_bit` of the last valid bit, and one at CAP. -/
theorem witness_TheTwoDrawsAreTheOnlyFreeValues :
    (∀ h b fill, Instr.getBit 0 7 ≠ .injectBurst h b fill) ∧
    (∀ h index b, Instr.getBit 0 7 = .getBit h index → (holding .standard bufA).slot h = some b →
      index.toNat < b.bl ∨ b.cap ≤ index.toNat) ∧ bufA.cap ≤ (16 : Word).toNat := by
  refine ⟨fun _ _ _ h => (by cases h), fun h index b e hb => ?_, by decide⟩
  cases e
  have h0 : (holding .standard bufA).slot 0 = some bufA := by decide +kernel
  rw [h0] at hb; cases hb
  exact .inl (by decide)

/-- Two buffers that differ in the bits above BL alone. -/
theorem witness_GarbageBitsAreNeverObservable :
    (holding .standard bufBits).Inv ∧ (holding .standard { bufBits with store := [(0, 0xBF)] }).Inv ∧
    (holding .standard bufBits).SameView (holding .standard { bufBits with store := [(0, 0xBF)] }) ∧
    step (holding .standard bufBits) = .next (stepd (holding .standard bufBits)) ∧
    holding .standard bufBits ≠ holding .standard { bufBits with store := [(0, 0xBF)] } := by
  refine ⟨holding_inv standard_wf bufBits_ok, holding_inv standard_wf (by constructor <;> decide), ?_,
    step_stepd _, by decide +kernel⟩
  refine ⟨rfl, fun h => ?_, rfl, rfl, rfl, rfl, rfl, rfl⟩
  unfold holding
  rw [State.slot_setSlot, State.slot_setSlot]
  split
  · exact ⟨by decide +kernel, rfl, rfl⟩
  · simp [SlotSameView]

/-- "110" (P6), in one byte. -/
theorem witness_FromTextBuildsTheBits :
    (State.resetWith small).Inv ∧ (State.resetWith small).halted = false ∧ (State.resetWith small).cmdPort = [] ∧
    (State.resetWith small).dataPort = [] ∧ (3 : Handle).toNat < (State.resetWith small).cfg.nslots ∧
    (State.resetWith small).slot 3 = none ∧ 4 * [true, true, false].length ≤ 3 * (8 * 2 ^ 0) ∧
    2 ^ 0 ≤ (State.resetWith small).cfg.maxSlotBytes :=
  ⟨resetWith_inv small_wf, by decide +kernel⟩

/-- Each clause: a halted block, an illegal word, a command that faults and one that does not. -/
theorem witness_RunThatFaultsHasEndedAndFailed :
    stopped.halted = true ∧ State.reset.halted = false ∧ State.reset.cmdPort = [] ∧ State.reset.dataPort = [] ∧
    decodeWord 0x30000001 0 [] = .error .reservedField0 ∧ (Instr.getBit 0 1).wellFormed = true ∧
    exec (.getBit 0 1) State.reset = .next (execd (.getBit 0 1) State.reset) ∧
    (execd (.getBit 0 1) State.reset).halted = true ∧ (execd (.newEmpty 0 0) State.reset).halted = false :=
  ⟨by decide, by decide, rfl, rfl, by decide, by decide, exec_execd _ _, by decide +kernel, by decide +kernel⟩

end Sys2Proof.Tests
end

/-! PROOFS. The registers of 10_state.md: what writes FAULT_CMD (R38), RESULT (R33) and RNZ (R35). -/

namespace Sys2Proof

/-- The word of a decoded command stands at the front of the command port (30_encoding.md R70). -/
theorem decode_command_head {ws words : List Word} {bs bytes : List Byte} {i : Instr}
    (h : decode ws bs = .command i words bytes) : ws.head? = some (cmdWord i) := by
  cases ws with
  | nil => simp [decode] at h
  | cons w rest =>
    simp only [decode] at h
    (repeat' split at h) <;> cases h
    next hd => simp [(decodeWord_ok hd).1]

end Sys2Proof

namespace Sys2Proof.Machine

/-! ## FAULT_CMD (R38) -/

@[simp] theorem halted_takeWord (s : State) : s.takeWord.halted = s.halted := rfl

@[simp] theorem halted_retire (s : State) (words : List Word) (bytes : List Byte) :
    (s.retire words bytes).halted = s.halted := by
  simp [State.halted]

/-- A step of a running block keeps it running and FAULT_CMD as it was, or halts it with the word at the front
of the command port in FAULT_CMD. -/
theorem step_faultCmd_of_running {s t : State} (hs : s.halted = false) (h : step s = .next t) :
    (t.halted = false ∧ t.faultCmd = s.faultCmd) ∨
      (t.halted = true ∧ s.cmdPort.head? = some t.faultCmd) := by
  rcases step_cases s with ⟨hh, -⟩ | ⟨-, -, e⟩ | ⟨w, why, -, hd, e⟩ | ⟨i, words, bytes, u, -, hd, hx, e⟩
  · rw [hs] at hh; cases hh
  · cases e.symm.trans h
    exact .inl ⟨hs, rfl⟩
  · cases e.symm.trans h
    obtain ⟨rest, hw⟩ := decode_illegal_head hd
    exact .inr ⟨by simp, by simp [hw]⟩
  · cases e.symm.trans h
    rcases exec_halted hs hx with ⟨hu, hr⟩ | ⟨hu, c, -, rfl⟩
    · obtain ⟨-, -, -, hf, -⟩ := runOf_frame hr
      exact .inl ⟨by simpa using hu, by simpa using hf⟩
    · exact .inr ⟨by simp, by simpa using decode_command_head hd⟩

/-- Settles O23: a halted block does not step on, and a running one enters a fault or keeps FAULT_CMD, which the
invariant says is 0. -/
theorem faultCmdIsWrittenOnlyAtFaultEntry : Obligations.FaultCmdIsWrittenOnlyAtFaultEntry := by
  intro s t hi h
  cases hs : s.halted with
  | true =>
    cases (step_halted hs).symm.trans h
    simp [hs]
  | false =>
    have h0 : s.faultCmd = 0 := (hi.no_fault hs).2
    rcases step_faultCmd_of_running hs h with ⟨ht, hf⟩ | ⟨ht, hf⟩
    · simp [ht, hf, h0]
    · simp [ht, hf]

/-! ## RESULT (R33) -/

theorem bitWord_eq_zero_or_one (v : Bool) : bitWord v = 0 ∨ bitWord v = 1 := by
  cases v
  · exact .inl rfl
  · exact .inr rfl

theorem runGetBit_result_zero_or_one {s t : State} {h : Handle} {index : Word} (hr : runGetBit h index s = .ok t) :
    t.result = 0 ∨ t.result = 1 := by
  obtain ⟨b, -, -, -, ⟨-, rfl⟩ | ⟨-, rfl⟩⟩ := runGetBit_ok.1 hr
  · exact bitWord_eq_zero_or_one _
  · exact bitWord_eq_zero_or_one _

theorem runPopBit_result_zero_or_one {s t : State} {h : Handle} (hr : runPopBit h s = .ok t) :
    t.result = 0 ∨ t.result = 1 := by
  obtain ⟨b, -, -, -, rfl⟩ := runPopBit_ok.1 hr
  exact bitWord_eq_zero_or_one _

section Queries

variable {s t : State} {h : Handle} {b : Buffer} (hb : s.slot h = some b)
include hb

theorem runGetLen_result (hr : runGetLen h s = .ok t) : t.result = (b.bl : Word) := by
  obtain ⟨b', -, hb', rfl⟩ := runGetLen_ok.1 hr
  cases hb.symm.trans hb'
  rfl

theorem runGetCap_result (hr : runGetCap h s = .ok t) : t.result = (b.cap : Word) := by
  obtain ⟨b', -, hb', rfl⟩ := runGetCap_ok.1 hr
  cases hb.symm.trans hb'
  rfl

theorem runGetResidue_result (hr : runGetResidue h s = .ok t) : t.result = b.res := by
  obtain ⟨b', -, hb', rfl⟩ := runGetResidue_ok.1 hr
  cases hb.symm.trans hb'
  rfl

end Queries

/-- A command that is no query, or that faults, leaves RESULT (R33, 60_exceptions.md R183). -/
theorem exec_keeps_result {i : Instr} {s t : State} (hs : s.halted = false) (he : exec i s = .next t)
    (h : writesResult i = false ∨ t.halted = true) : t.result = s.result := by
  rcases exec_halted hs he with ⟨ht, hr⟩ | ⟨-, c, -, rfl⟩
  · obtain ⟨-, -, -, -, -, -, hres, -⟩ := runOf_frame hr
    exact hres (h.resolve_right (by simp [ht]))
  · rfl

/-- Settles O50: the frame for what keeps RESULT, and each query's own value. -/
theorem resultIsWrittenOnlyByTheFiveQueries : Obligations.ResultIsWrittenOnlyByTheFiveQueries := by
  intro i s t hs he
  refine ⟨exec_keeps_result hs he, fun ht h index hi => ?_, fun ht h b hb => ⟨?_, ?_, ?_⟩⟩
  · have hr := runOf_of_exec hs he ht
    rcases hi with rfl | rfl
    · exact runGetBit_result_zero_or_one hr
    · exact runPopBit_result_zero_or_one hr
  · rintro rfl
    exact runGetLen_result hb (runOf_of_exec hs he ht)
  · rintro rfl
    exact runGetCap_result hb (runOf_of_exec hs he ht)
  · rintro rfl
    exact runGetResidue_result hb (runOf_of_exec hs he ht)

/-! ## RNZ (R35) -/

/-- Pushing keeps RES, whatever the parameters (10_state.md R26). -/
theorem pushBits_res {c : Config} {b b' : Buffer} {vs : List Bool} (h : pushBits c b vs = .ok b') :
    b'.res = b.res := by
  induction vs generalizing b with
  | nil => cases h; rfl
  | cons v vs ih =>
    obtain ⟨b1, h1, h2⟩ := bind_eq_ok.1 h
    obtain ⟨sb, -, rfl⟩ := pushBuffer_ok.1 h1
    exact (ih h2).trans rfl

/-- A CRC command that completes writes RNZ from the residue that its output holds (R35). -/
theorem runOf_crc_rnz {i : Instr} {s t : State} (hc : isCrc i = true) (hr : runOf i s = .ok t) :
    ∃ d out, destination i = some d ∧ t.slot d = some out ∧ statusRnz t.status = decide (out.res ≠ 0) := by
  cases i with
  | crcEncode d h gen =>
    obtain ⟨b, g, out, -, -, -, -, -, -, hp, rfl⟩ := runCrcEncode_ok.1 hr
    have hres : out.res = crcResidue s.cfg g b := pushBits_res hp
    exact ⟨d, out, rfl, by simp, by simp [hres]⟩
  | crcDecode d h gen =>
    obtain ⟨b, g, -, -, -, -, -, -, rfl⟩ := runCrcDecode_ok.1 hr
    refine ⟨d, copyOf b (crcResidue s.cfg g b), rfl, by simp, ?_⟩
    rw [State.setRnz_status, statusRnz_setRnz]
    rfl
  | _ => cases hc

/-- A command that is no CRC command, or that faults, leaves RNZ (R35, 60_exceptions.md R183). -/
theorem exec_keeps_rnz {i : Instr} {s t : State} (hs : s.halted = false) (he : exec i s = .next t)
    (h : isCrc i = false ∨ t.halted = true) : statusRnz t.status = statusRnz s.status := by
  rcases exec_halted hs he with ⟨ht, hr⟩ | ⟨-, c, -, rfl⟩
  · obtain ⟨-, -, -, -, -, -, -, hstatus, -⟩ := runOf_frame hr
    rw [hstatus (h.resolve_right (by simp [ht]))]
  · simp

/-- Settles O51: what a completed CRC command writes, and the frame for what keeps RNZ. -/
theorem rnzIsWrittenOnlyByCompletedCrcCommands : Obligations.RnzIsWrittenOnlyByCompletedCrcCommands := by
  refine ⟨fun i s t hs he => ⟨fun hc ht => ?_, exec_keeps_rnz hs he⟩, fun c => ?_⟩
  · exact runOf_crc_rnz hc (runOf_of_exec hs he ht)
  · simp [statusRnz, State.resetWith]

end Sys2Proof.Machine

/-! PROOFS. Byte order (20_memory.md R53): no command's effect reads HOST_BIG_ENDIAN, since the two
normalizations of 41_crc_engine.md R137 cancel, or whether trace events are emitted (R146). -/

namespace Sys2Proof

/-- The parameters with HOST_BIG_ENDIAN and the emission of trace events changed. -/
def Config.mapInert (order trace : Bool → Bool) (c : Config) : Config :=
  { c with hostBigEndian := order c.hostBigEndian, traceEvents := trace c.traceEvents }

end Sys2Proof

namespace Sys2Proof.Machine

/-- The state with those two parameters changed. -/
def State.mapInert (order trace : Bool → Bool) (s : State) : State :=
  { s with cfg := s.cfg.mapInert order trace }

section Inert

variable (order trace : Bool → Bool) (c : Config) (s : State)

theorem State.mapInert_cfg : (s.mapInert order trace).cfg = s.cfg.mapInert order trace := rfl

/-! ## Each operation that reads the parameters -/

theorem growBytes_mapInert (nbl fuel sb : Nat) :
    growBytes (c.mapInert order trace) nbl fuel sb = growBytes c nbl fuel sb := by
  induction fuel generalizing sb with
  | zero => rfl
  | succ fuel ih =>
    unfold growBytes
    rw [ih]
    rfl

theorem pushBuffer_mapInert (b : Buffer) (v : Bool) :
    pushBuffer (c.mapInert order trace) b v = pushBuffer c b v := by
  unfold pushBuffer grow
  rw [growBytes_mapInert]
  rfl

theorem pushBits_mapInert (b : Buffer) (vs : List Bool) :
    pushBits (c.mapInert order trace) b vs = pushBits c b vs := by
  induction vs generalizing b with
  | nil => rfl
  | cons v vs ih => simp only [pushBits, pushBuffer_mapInert, ih]

/-- The residue is the register's final value under either byte order (R137). -/
theorem crcResidue_mapInert (g : Generator) (b : Buffer) :
    crcResidue (c.mapInert order trace) g b = crcResidue c g b := by
  unfold crcResidue
  rw [residueOfRegister_eq, residueOfRegister_eq]
  rfl

/-! ## Commands -/

/-- Pseudocode whose continuations agree up to a change of the state agrees up to that change. -/
theorem bind_eq_map_bind {α : Type} {x : Except Cause α} {f g : α → Except Cause State} {k : State → State}
    (h : ∀ a, g a = (f a).map k) : (x >>= g) = (x >>= f).map k := by
  cases x with
  | error e => rfl
  | ok a => exact h a

theorem runCrcEncode_mapInert (d h : Handle) (gen : Word) :
    runCrcEncode d h gen (s.mapInert order trace) = (runCrcEncode d h gen s).map (State.mapInert order trace) :=
  bind_eq_map_bind fun _ => bind_eq_map_bind fun _ => bind_eq_map_bind fun _ => by
    simp only [State.mapInert_cfg, crcResidue_mapInert, pushBits_mapInert]
    exact bind_eq_map_bind fun _ => bind_eq_map_bind fun _ => rfl

theorem runCrcDecode_mapInert (d h : Handle) (gen : Word) :
    runCrcDecode d h gen (s.mapInert order trace) = (runCrcDecode d h gen s).map (State.mapInert order trace) :=
  bind_eq_map_bind fun _ => bind_eq_map_bind fun _ => bind_eq_map_bind fun _ => by
    simp only [State.mapInert_cfg, crcResidue_mapInert]
    exact bind_eq_map_bind fun _ => rfl

theorem runOf_mapInert (i : Instr) :
    runOf i (s.mapInert order trace) = (runOf i s).map (State.mapInert order trace) := by
  cases i with
  | fromBytes d data => exact bind_eq_map_bind fun _ => bind_eq_map_bind fun _ => rfl
  | newEmpty d capBits => exact bind_eq_map_bind fun _ => bind_eq_map_bind fun _ => rfl
  | getBit h index =>
    refine bind_eq_map_bind fun _ => ?_
    split
    · rfl
    · split <;> rfl
  | setBit h index v =>
    refine bind_eq_map_bind fun _ => ?_
    split <;> rfl
  | pushBit h v =>
    refine bind_eq_map_bind fun _ => ?_
    rw [State.mapInert_cfg, pushBuffer_mapInert]
    exact bind_eq_map_bind fun _ => rfl
  | popBit h =>
    refine bind_eq_map_bind fun _ => ?_
    split <;> rfl
  | free h => exact bind_eq_map_bind fun _ => rfl
  | getLen h => exact bind_eq_map_bind fun _ => rfl
  | getCap h => exact bind_eq_map_bind fun _ => rfl
  | getResidue h => exact bind_eq_map_bind fun _ => rfl
  | crcEncode d h gen => exact runCrcEncode_mapInert order trace s d h gen
  | crcDecode d h gen => exact runCrcDecode_mapInert order trace s d h gen
  | injectBurst h burstBits fill =>
    refine bind_eq_map_bind fun _ => ?_
    dsimp only
    split <;> rfl

/-- A command does the same whatever the two parameters are: changing them before it is changing them after. -/
theorem exec_mapInert (i : Instr) :
    exec i (s.mapInert order trace) = mapNext (State.mapInert order trace) (exec i s) := by
  rw [exec_eq_finish, exec_eq_finish, runOf_mapInert]
  cases runOf i s with
  | ok t => rfl
  | error c => rfl

end Inert

/-- Settles O43: setting the byte order alone is one such change. -/
theorem hostByteOrderHasNoEffect : Obligations.HostByteOrderHasNoEffect :=
  fun i s big => exec_mapInert (fun _ => big) id s i

end Sys2Proof.Machine

/-! PROOFS. Illegal command words (30_encoding.md R75): the six conditions, the fault, and the opcode table
(R79, R80). -/

namespace Sys2Proof

/-! ## When the decoder rejects a word -/

theorem exists_error_or_ok {α : Type} (x : Except Illegal α) : (∃ why, x = .error why) ∨ ∃ a, x = .ok a := by
  cases x with
  | error why => exact .inl ⟨why, rfl⟩
  | ok a => exact .inr ⟨a, rfl⟩

section Fields

variable (w imm : Word) (data : List Byte) (r : Except Illegal Instr)

theorem unlessMode_error_iff : (∃ why, unlessMode w r = .error why) ↔ fieldM w = true ∨ ∃ why, r = .error why := by
  unfold unlessMode
  split <;> simp [*]

theorem unlessDestination_error_iff :
    (∃ why, unlessDestination w r = .error why) ↔ fieldD w ≠ 0#4 ∨ ∃ why, r = .error why := by
  unfold unlessDestination
  split <;> simp_all

theorem unlessSource_error_iff :
    (∃ why, unlessSource w r = .error why) ↔ fieldS w ≠ 0#4 ∨ ∃ why, r = .error why := by
  unfold unlessSource
  split <;> simp_all

/-- The case of R79 on `OP` rejects a word under the conditions 1, 4, 5 and 6 of R75. -/
theorem decodeOpcode_error_iff :
    (∃ why, decodeOpcode w imm data = .error why) ↔
      fieldOp w ∈ [0x0#4, 0xD#4, 0xE#4, 0xF#4] ∨
      (fieldM w = true ∧ fieldOp w ∉ [0x4#4, 0x5#4, 0xB#4, 0xC#4]) ∨
      (fieldD w ≠ 0#4 ∧ fieldOp w ∉ [0x1#4, 0x2#4, 0xB#4]) ∨
      (fieldS w ≠ 0#4 ∧
        fieldOp w ∉ [0x3#4, 0x4#4, 0x5#4, 0x6#4, 0x7#4, 0x8#4, 0x9#4, 0xA#4, 0xB#4, 0xC#4]) := by
  have hlt := (fieldOp w).isLt
  have hop : fieldOp w = BitVec.ofNat 4 (fieldOp w).toNat := by simp
  unfold decodeOpcode
  generalize (fieldOp w).toNat = k at hlt hop
  rw [hop]
  interval_cases k <;> simp [unlessMode_error_iff, unlessDestination_error_iff, unlessSource_error_iff]

/-- The decoder rejects a word, whatever its operands, under the six conditions of R75. -/
theorem decodeWord_error_iff :
    (∃ why, decodeWord w imm data = .error why) ↔
      fieldOp w ∈ [0x0#4, 0xD#4, 0xE#4, 0xF#4] ∨ fieldRsv1 w ≠ 0#3 ∨ fieldRsv0 w ≠ 0#16 ∨
      (fieldM w = true ∧ fieldOp w ∉ [0x4#4, 0x5#4, 0xB#4, 0xC#4]) ∨
      (fieldD w ≠ 0#4 ∧ fieldOp w ∉ [0x1#4, 0x2#4, 0xB#4]) ∨
      (fieldS w ≠ 0#4 ∧
        fieldOp w ∉ [0x3#4, 0x4#4, 0x5#4, 0x6#4, 0x7#4, 0x8#4, 0x9#4, 0xA#4, 0xB#4, 0xC#4]) := by
  unfold decodeWord
  split
  · next h1 => simp [h1]
  next h1 =>
  split
  · next h0 => simp [h0]
  next h0 =>
  rw [decodeOpcode_error_iff]
  simp only [h1, h0, false_or]

end Fields

/-! ## The opcode table -/

/-- Every command's word is a word of the command's row of the table and of no other. -/
theorem tableMatch (i : Instr) : Laws.TableMatch.Statement i := by
  cases i with
  | fromBytes d data => exact Laws.TableMatch.fromBytes d data
  | newEmpty d capBits => exact Laws.TableMatch.newEmpty d capBits
  | getBit s index => exact Laws.TableMatch.getBit s index
  | setBit s index v => exact Laws.TableMatch.setBit s index v
  | pushBit s v => exact Laws.TableMatch.pushBit s v
  | popBit s => exact Laws.TableMatch.popBit s
  | free s => exact Laws.TableMatch.free s
  | getLen s => exact Laws.TableMatch.getLen s
  | getCap s => exact Laws.TableMatch.getCap s
  | getResidue s => exact Laws.TableMatch.getResidue s
  | crcEncode d s gen => exact Laws.TableMatch.crcEncode d s gen
  | crcDecode d s gen => exact Laws.TableMatch.crcDecode d s gen
  | injectBurst s burstBits fill => exact Laws.TableMatch.injectBurst s burstBits fill

/-- A word decodes to a command of every row that it matches, so of one row. -/
theorem opcodeRow_of_matches {w imm : Word} {data : List Byte} {i : Instr} {r : OpcodeRow}
    (hd : decodeWord w imm data = .ok i) (hr : r ∈ opcodeTable) (hm : r.matches w = true) : r = opcodeRow i := by
  obtain ⟨rfl, -⟩ := decodeWord_ok hd
  exact ((tableMatch i).2 r hr).1 hm

/-- The row of the command that a word decodes to is a row that the word matches. -/
theorem matches_of_decodeWord {w imm : Word} {data : List Byte} {i : Instr} (hd : decodeWord w imm data = .ok i) :
    opcodeRow i ∈ opcodeTable ∧ (opcodeRow i).matches w = true := by
  obtain ⟨rfl, hr, -⟩ := decodeWord_ok hd
  exact ⟨hr, ((tableMatch i).2 _ hr).2 rfl⟩

theorem and_mask_of_matches {r : OpcodeRow} {w : Word} (hm : r.matches w = true) : w &&& r.mask = r.matchBits :=
  beq_iff_eq.1 hm

/-- Where the mask selects a whole field, a word of a row has the row's bits in it. -/
theorem field_of_matches {r : OpcodeRow} {w : Word} {start len : Nat} (hm : r.matches w = true)
    (hmask : r.mask.extractLsb' start len = BitVec.allOnes len) :
    w.extractLsb' start len = r.matchBits.extractLsb' start len := by
  rw [← and_mask_of_matches hm, BitVec.extractLsb'_and, hmask, BitVec.and_allOnes]

/-- Where the mask selects `M`, a word of a row has the row's `M`. -/
theorem fieldM_of_matches {r : OpcodeRow} {w : Word} (hm : r.matches w = true) (hmask : fieldM r.mask = true) :
    fieldM w = fieldM r.matchBits := by
  unfold fieldM at hmask ⊢
  rw [← and_mask_of_matches hm, BitVec.getLsbD_and, hmask, Bool.and_true]

/-- Every row fixes `OP` to a legal opcode, and to 0 the reserved fields and those the opcode does not use (R73,
R74, R80). -/
theorem opcodeTable_fixes : ∀ r ∈ opcodeTable,
    (fieldOp r.mask = BitVec.allOnes 4 ∧ fieldOp r.matchBits ∉ [0x0#4, 0xD#4, 0xE#4, 0xF#4]) ∧
    (fieldRsv1 r.mask = BitVec.allOnes 3 ∧ fieldRsv1 r.matchBits = 0#3) ∧
    (fieldRsv0 r.mask = BitVec.allOnes 16 ∧ fieldRsv0 r.matchBits = 0#16) ∧
    (fieldOp r.matchBits ∉ [0x4#4, 0x5#4, 0xB#4, 0xC#4] → fieldM r.mask = true ∧ fieldM r.matchBits = false) ∧
    (fieldOp r.matchBits ∉ [0x1#4, 0x2#4, 0xB#4] →
      fieldD r.mask = BitVec.allOnes 4 ∧ fieldD r.matchBits = 0#4) ∧
    (fieldOp r.matchBits ∉ [0x3#4, 0x4#4, 0x5#4, 0x6#4, 0x7#4, 0x8#4, 0x9#4, 0xA#4, 0xB#4, 0xC#4] →
      fieldS r.mask = BitVec.allOnes 4 ∧ fieldS r.matchBits = 0#4) := by
  decide

/-- A word of a row meets none of the six conditions of R75, so it decodes. -/
theorem decodeWord_of_matches {r : OpcodeRow} {w : Word} (hr : r ∈ opcodeTable) (hm : r.matches w = true)
    (imm : Word) (data : List Byte) : ∃ i, decodeWord w imm data = .ok i := by
  refine (exists_error_or_ok _).resolve_left fun he => ?_
  obtain ⟨⟨kop, hop⟩, ⟨k1, h1⟩, ⟨k0, h0⟩, hM, hD, hS⟩ := opcodeTable_fixes r hr
  have eop : fieldOp w = fieldOp r.matchBits := field_of_matches hm kop
  rw [decodeWord_error_iff, eop] at he
  rcases he with hc | hc | hc | ⟨hc, hu⟩ | ⟨hc, hu⟩ | ⟨hc, hu⟩
  · exact hop hc
  · exact hc ((field_of_matches hm k1).trans h1)
  · exact hc ((field_of_matches hm k0).trans h0)
  · obtain ⟨k, h⟩ := hM hu
    rw [fieldM_of_matches hm k, h] at hc
    cases hc
  · obtain ⟨k, h⟩ := hD hu
    exact hc ((field_of_matches hm k).trans h)
  · obtain ⟨k, h⟩ := hS hu
    exact hc ((field_of_matches hm k).trans h)

/-- A word is illegal exactly when it is a word of no row of the table (R75, R79). -/
theorem decodeWord_error_iff_matches_none (w imm : Word) (data : List Byte) :
    (∃ why, decodeWord w imm data = .error why) ↔ ∀ r ∈ opcodeTable, r.matches w = false := by
  constructor
  · rintro ⟨why, he⟩ r hr
    by_contra hm
    obtain ⟨i, hd⟩ := decodeWord_of_matches hr (by simpa using hm) imm data
    cases he.symm.trans hd
  · intro hno
    refine (exists_error_or_ok _).resolve_right ?_
    rintro ⟨i, hd⟩
    obtain ⟨hr, hm⟩ := matches_of_decodeWord hd
    simp [hno _ hr] at hm

/-- No word is a word of two rows of the table (R79): both would be the row of the command it decodes to. -/
theorem opcodeTable_disjoint :
    opcodeTable.Pairwise (fun r q => ∀ w : Word, ¬ (r.matches w = true ∧ q.matches w = true)) := by
  have hnodup : opcodeTable.Nodup := by decide
  refine List.Pairwise.imp_of_mem (fun {r q} hr hq hne w => ?_) hnodup
  rintro ⟨hmr, hmq⟩
  obtain ⟨i, hd⟩ := decodeWord_of_matches hr hmr 0 []
  exact hne ((opcodeRow_of_matches hd hr hmr).trans (opcodeRow_of_matches hd hq hmq).symm)

end Sys2Proof

namespace Sys2Proof.Machine

/-- An illegal word at the front of the command port of a running block is taken and enters its fault. -/
theorem step_illegal {s : State} {w : Word} {why : Illegal} (hs : s.halted = false)
    (hd : decode s.cmdPort s.dataPort = .illegal w why) :
    step s = .next (takeFault .illegalCmd w s).takeWord := by
  unfold step
  simp [hs, hd]

/-- Settles O3: the six conditions field by field, the fault of the step, the word 0, and the opcode table, of
which a legal word matches its command's row alone. -/
theorem illegalWordsAreThoseOfTheSixConditions : Obligations.IllegalWordsAreThoseOfTheSixConditions := by
  refine ⟨fun w => decodeWord_error_iff w 0 [], fun s w rest why hs hp he => ?_, ⟨.reservedOpcode, rfl⟩,
    fun w => decodeWord_error_iff_matches_none w 0 [], opcodeTable_disjoint⟩
  have hd : decode s.cmdPort s.dataPort = .illegal w why := by rw [hp]; exact decode_illegal he
  exact ⟨_, step_illegal hs hd, rfl⟩

end Sys2Proof.Machine

/-! PROOFS. Every step and every host interaction keeps the invariant, so every reachable state has it; the fill
limits of 40_bitbuffer.md R113 are part of it. -/

namespace Sys2Proof.Machine

/-! ## Buffers that commands make (R103 to R108, 42_burst_injector.md R160) -/

section Buffers

variable {c : Config} {b : Buffer}

theorem Buffer.Ok.ofBytes (hc : c.wf) {data : List Byte} (hn : fromBytesSize c data.length ≤ c.maxSlotBytes) :
    ({ sb := fromBytesSize c data.length, store := Memory.ofBytes 0 data, bl := 8 * data.length, res := 0 } :
      Buffer).Ok c := by
  have e := fromBytesSize_eq hc data.length
  have hlength : 8 * data.length ≤ 8 * fromBytesSize c data.length := by omega
  have hfill : 4 * (8 * data.length) ≤ 3 * (8 * fromBytesSize c data.length) := by omega
  refine ⟨by simp only; omega, hn, hlength, hfill, Memory.wf_ofBytes data, fun cell hcell => ?_, by simp⟩
  have := (Memory.mem_ofBytes hcell).2
  simp only
  omega

theorem Buffer.Ok.empty {n : Nat} (hpos : 1 ≤ n) (hn : n ≤ c.maxSlotBytes) :
    ({ sb := n, store := [], bl := 0, res := 0 } : Buffer).Ok c :=
  ⟨hpos, hn, by simp, by simp, rfl, by simp, by simp⟩

/-- Storage may change inside its size: the fill limits do not read it. -/
theorem Buffer.Ok.withStore (hb : b.Ok c) {m : Memory} (hwf : m.wf = true) (hlt : ∀ cell ∈ m, cell.1 < b.sb) :
    ({ b with store := m } : Buffer).Ok c :=
  ⟨hb.size_pos, hb.size_max, hb.length_le, hb.fill_le, hwf, hlt, hb.res_lt⟩

theorem Buffer.Ok.bitWrite (hb : b.Ok c) (o : BitOrder) {i : Nat} (v : Bool) (hi : i < b.cap) :
    ({ b with store := b.store.bitWrite o i v } : Buffer).Ok c := by
  refine hb.withStore (Memory.wf_bitWrite o i v hb.store_wf) fun cell hcell => ?_
  rcases Memory.mem_bitWrite hcell with h | h
  · simp only [Buffer.cap] at hi
    omega
  · exact hb.store_lt cell h

/-- The bytes that hold the valid bits are within the storage. -/
theorem Buffer.Ok.ceilDiv8_bl_le (hb : b.Ok c) : ceilDiv8 b.bl ≤ b.sb := by
  have := hb.length_le
  simp only [Buffer.cap] at this
  unfold ceilDiv8
  omega

theorem Buffer.Ok.burst (hb : b.Ok c) (off : Nat) (z : BurstSize) (fill : Fill) :
    ({ b with store := burstWrites b.store (ceilDiv8 b.bl) off z fill } : Buffer).Ok c := by
  refine hb.withStore (wf_burstWrites _ off z fill hb.store_wf) fun cell hcell => ?_
  rcases mem_burstWrites hcell with h | h
  · exact h.trans_le hb.ceilDiv8_bl_le
  · exact hb.store_lt cell h

/-- Fewer valid bits meet the fill limits where more do. -/
theorem Buffer.Ok.shorten (hb : b.Ok c) {n : Nat} (hn : n ≤ b.bl) : ({ b with bl := n } : Buffer).Ok c :=
  ⟨hb.size_pos, hb.size_max, hn.trans hb.length_le, (Nat.mul_le_mul_left 4 hn).trans hb.fill_le, hb.store_wf,
    hb.store_lt, hb.res_lt⟩

/-- The capacity of a legal size fits in 32 bits (10_state.md R23, 00_scope.md R6). -/
theorem Buffer.Ok.cap_lt (hb : b.Ok c) (hc : c.wf) : b.cap < 2 ^ 32 := by
  have := hb.size_max
  have := Config.maxSlotBytes_le hc
  simp only [Buffer.cap]
  omega

end Buffers

/-! ## Commands -/

variable {s t : State}

theorem State.Inv.setSlot_some {h : Handle} {b : Buffer} (hi : s.Inv) (hn : h.toNat < s.cfg.nslots)
    (hb : b.Ok s.cfg) : (s.setSlot h (some b)).Inv :=
  hi.setSlot fun _ e => by cases e; exact ⟨hn, hb⟩

theorem State.Inv.freeSlot {h : Handle} (hi : s.Inv) : (s.setSlot h none).Inv :=
  hi.setSlot fun _ e => by cases e

theorem State.Inv.buffer_ok {h : Handle} {b : Buffer} (hi : s.Inv) (hb : s.slot h = some b) : b.Ok s.cfg :=
  (hi.slot_ok h b hb).2

/-- A command that completes keeps the invariant: the buffer it makes or changes is a legal one, and every other
slot stays. -/
theorem runOf_keeps_inv {i : Instr} (hi : s.Inv) (hr : runOf i s = .ok t) : t.Inv := by
  have hc := hi.cfg_wf
  cases i with
  | fromBytes d data =>
    obtain ⟨hd, -, hn, rfl⟩ := runFromBytes_ok.1 hr
    exact hi.setSlot_some hd (.ofBytes hc hn)
  | newEmpty d capBits =>
    obtain ⟨hd, -, hn, rfl⟩ := runNewEmpty_ok.1 hr
    exact hi.setSlot_some hd (.empty (Nat.le_max_right _ _) hn)
  | getBit h index =>
    obtain ⟨b, -, -, -, ⟨-, rfl⟩ | ⟨-, rfl⟩⟩ := runGetBit_ok.1 hr
    · exact hi.setResult _
    · exact (hi.setResult _).countDraw
  | setBit h index v =>
    obtain ⟨b, hh, hb, hlt, rfl⟩ := runSetBit_ok.1 hr
    exact hi.setSlot_some hh ((hi.buffer_ok hb).bitWrite _ v hlt)
  | pushBit h v =>
    obtain ⟨b, sb, hh, hb, hg, rfl⟩ := runPushBit_ok.1 hr
    exact hi.setSlot_some hh ((hi.buffer_ok hb).push hc hg)
  | popBit h =>
    obtain ⟨b, hh, hb, -, rfl⟩ := runPopBit_ok.1 hr
    exact (hi.setSlot_some hh ((hi.buffer_ok hb).shorten (Nat.sub_le _ _))).setResult _
  | free h =>
    obtain ⟨b, -, -, rfl⟩ := runFree_ok.1 hr
    exact hi.freeSlot
  | getLen h =>
    obtain ⟨b, -, -, rfl⟩ := runGetLen_ok.1 hr
    exact hi.setResult _
  | getCap h =>
    obtain ⟨b, -, -, rfl⟩ := runGetCap_ok.1 hr
    exact hi.setResult _
  | getResidue h =>
    obtain ⟨b, -, -, rfl⟩ := runGetResidue_ok.1 hr
    exact hi.setResult _
  | crcEncode d h gen =>
    obtain ⟨b, g, out, -, hb, hd, -, hg, hn, hp, rfl⟩ := runCrcEncode_ok.1 hr
    have hcopy := (hi.buffer_ok hb).copyOf _ (crcResidue_lt_31 hc hg b) hn
    exact (hi.setSlot_some hd (hcopy.pushBits hc hp)).setRnz _
  | crcDecode d h gen =>
    obtain ⟨b, g, -, hb, hd, -, hg, hn, rfl⟩ := runCrcDecode_ok.1 hr
    exact (hi.setSlot_some hd ((hi.buffer_ok hb).copyOf _ (crcResidue_lt_31 hc hg b) hn)).setRnz _
  | injectBurst h burstBits fill =>
    obtain ⟨b, hh, hb, ht⟩ := runInjectBurst_ok.1 hr
    have hinject := hi.setSlot_some hh
      ((hi.buffer_ok hb).burst (burstOffset s b burstBits.toNat) (burstSize burstBits.toNat) fill)
    rcases ht with ⟨-, rfl⟩ | ⟨-, rfl⟩
    · exact hinject.countDraw
    · exact hinject

theorem exec_keeps_inv {i : Instr} (hi : s.Inv) (he : exec i s = .next t) : t.Inv := by
  rcases exec_next.1 he with hr | ⟨c, -, rfl⟩
  · exact runOf_keeps_inv hi hr
  · exact hi.takeFault c _

/-! ## Steps and the host's interactions -/

theorem step_keeps_inv (hi : s.Inv) (h : step s = .next t) : t.Inv := by
  rcases step_cases s with ⟨-, e⟩ | ⟨-, -, e⟩ | ⟨w, why, -, -, e⟩ | ⟨i, words, bytes, u, -, -, he, e⟩
  · cases e.symm.trans h
    exact hi
  · cases e.symm.trans h
    exact hi
  · cases e.symm.trans h
    exact (hi.takeFault .illegalCmd w).ports _ _
  · cases e.symm.trans h
    exact (exec_keeps_inv hi he).retire words bytes

/-- The reset state of a legal configuration has the invariant, whatever number of draws were taken before
(70_reset_and_hazards.md R210; log 6). -/
theorem inv_resetWith_draws {c : Config} (hc : c.wf) (n : Nat) :
    ({ State.resetWith c with draws := n } : State).Inv where
  cfg_wf := hc
  slot_ok h b hb := by
    have hfree : (State.resetWith c).slot h = none := State.slot_resetWith h c
    cases hfree.symm.trans hb
  status_reserved := by simp [State.resetWith, statusReserved]
  no_fault _ := ⟨by simp [State.resetWith, statusCause], rfl⟩
  fault_cause hf := absurd hf (by simp [State.halted, State.resetWith, statusFault])

/-- The induction over every use of a block with legal parameters. -/
theorem Reachable.inv {c : Config} (hc : c.wf) (h : Reachable c s) : s.Inv := by
  induction h with
  | reset => exact inv_resetWith_draws hc 0
  | step _ hstep ih => exact step_keeps_inv ih hstep
  | word w _ ih => exact ih.ports _ _
  | byte v _ ih => exact ih.ports _ _
  | hostReset _ ih => exact inv_resetWith_draws ih.cfg_wf _

/-- Settles O15: every reachable state has the invariant, whose legal buffers are within capacity. -/
theorem reachableBuffersAreWithinCapacity : Obligations.ReachableBuffersAreWithinCapacity := by
  intro c s hc hr h b hb
  have hi : s.Inv := hr.inv hc
  have hok : b.Ok s.cfg := hi.buffer_ok hb
  exact ⟨hok.length_le, hok.fill_le, hok.cap_lt hi.cfg_wf⟩

end Sys2Proof.Machine

/-! PROOFS. The CRC engine (41_crc_engine.md): the generator's degree and masks (R130, R131), what a CRC command
writes (R142), and the residue as the remainder of a polynomial division over GF(2) (R143). -/

namespace Sys2Proof.Machine

/-! ## The generator (R130, R131) -/

section Generator

variable {c : Config} {gen : Word} {g : Generator}

/-- An operand of 2 or more is accepted: were it rejected, all its bits above bit 0 would be 0. -/
theorem exists_generator_of_two_le (hc : c.wf) (h2 : 2 ≤ gen.toNat) : ∃ g, checkGenerator c gen = .ok g := by
  cases hg : checkGenerator c gen with
  | ok g => exact ⟨g, rfl⟩
  | error e =>
    have hlt : gen.toNat < 2 ^ 1 := toNat_lt_of_bits (checkGenerator_error_bits hc hg)
    omega

theorem wmask_toNat (hc : c.wf) (hg : checkGenerator c gen = .ok g) : g.wmask.toNat = 2 ^ g.deg - 1 := by
  refine Nat.eq_of_testBit_eq fun j => ?_
  rw [BitVec.testBit_toNat, getLsbD_wmask hc hg, Nat.testBit_two_pow_sub_one]

/-- XMASK is the generator without its leading coefficient: masking takes it modulo 2^d, and it lies between 2^d
and 2 · 2^d. -/
theorem xmask_toNat (hc : c.wf) (hg : checkGenerator c gen = .ok g) :
    g.xmask.toNat = gen.toNat - 2 ^ g.deg := by
  obtain ⟨-, -, htop, habove, -⟩ := checkGenerator_ok hc hg
  have hle : 2 ^ g.deg ≤ gen.toNat := Nat.ge_two_pow_of_testBit htop
  have hlt : gen.toNat < 2 ^ (g.deg + 1) := toNat_lt_of_bits habove
  rw [xmask_eq hc hg, BitVec.toNat_and, wmask_toNat hc hg, Nat.and_two_pow_sub_one_eq_mod,
    Nat.mod_eq_sub_mod hle, Nat.mod_eq_of_lt (by omega)]

end Generator

/-- Settles O32: operands 0 and 1 are rejected; any other is accepted with its highest set bit as degree. -/
theorem generatorDegreeAndMasks : Obligations.GeneratorDegreeAndMasks := by
  intro c gen hc
  refine ⟨checkGenerator_lt_two c, fun h2 => ?_⟩
  obtain ⟨g, hg⟩ := exists_generator_of_two_le hc h2
  obtain ⟨hpos, hle, htop, habove, -⟩ := checkGenerator_ok hc hg
  exact ⟨g, hg, hpos, hle, htop, habove, wmask_toNat hc hg, xmask_eq hc hg, xmask_toNat hc hg⟩

/-! ## What a CRC command writes (R142) -/

theorem ne_of_free_of_allocated {s : State} {d h : Handle} {b : Buffer} (hd : s.slot d = none)
    (hb : s.slot h = some b) : d ≠ h := by
  rintro rfl
  cases hd.symm.trans hb

/-- A CRC command that completes sets its destination, which was FREE and so is not its source, and RNZ. -/
theorem runOf_crc_ok {i : Instr} {s t : State} {d h : Handle} (hc : isCrc i = true) (hsrc : source i = some h)
    (hdst : destination i = some d) (hr : runOf i s = .ok t) :
    s.slot d = none ∧ d ≠ h ∧ ∃ out v, t = (s.setSlot d (some out)).setRnz v := by
  cases i with
  | crcEncode d h gen =>
    cases hsrc
    cases hdst
    obtain ⟨b, g, out, -, hb, -, hd, -, -, -, rfl⟩ := runCrcEncode_ok.1 hr
    exact ⟨hd, ne_of_free_of_allocated hd hb, out, _, rfl⟩
  | crcDecode d h gen =>
    cases hsrc
    cases hdst
    obtain ⟨b, g, -, hb, -, hd, -, -, rfl⟩ := runCrcDecode_ok.1 hr
    exact ⟨hd, ne_of_free_of_allocated hd hb, _, _, rfl⟩
  | _ => cases hc

/-- Settles O36: a completed command sets the destination and RNZ alone, and a fault keeps every slot. -/
theorem crcWritesOnlyDestinationAndRnz : Obligations.CrcWritesOnlyDestinationAndRnz := by
  intro i s t d h hs hc hsrc hdst he
  rcases exec_halted hs he with ⟨ht, hr⟩ | ⟨ht, c, -, rfl⟩
  · obtain ⟨hfree, hne, out, v, rfl⟩ := runOf_crc_ok hc hsrc hdst hr
    have hslot : ∀ k, k ≠ d → ((s.setSlot d (some out)).setRnz v).slot k = s.slot k := fun k hk =>
      State.slot_setSlot_ne s d k _ hk
    refine ⟨hslot h hne.symm, hslot, rfl, fun hf => ?_, fun _ => ⟨hfree, hne, rfl, fun j hj => ?_⟩⟩
    · cases ht.symm.trans hf
    · rw [State.setRnz_status, getLsbD_statusSetRnz, if_neg hj, State.setSlot_status]
  · exact ⟨rfl, fun _ _ => rfl, rfl, fun _ _ => rfl, fun hf => by cases ht.symm.trans hf⟩

/-! ## Words and bit sequences as polynomials over GF(2) (00_scope.md R13) -/

open Polynomial

theorem coeff_wordPoly (w : Word) (k : Nat) : (wordPoly w).coeff k = if w.getLsbD k then 1 else 0 := by
  unfold wordPoly
  simp only [finsetSum_coeff, apply_ite (fun p : (ZMod 2)[X] => p.coeff k), coeff_X_pow, coeff_zero]
  by_cases hk : k < 32
  · rw [Finset.sum_eq_single_of_mem k (Finset.mem_range.2 hk) (fun j _ hj => by simp [hj.symm]), if_pos rfl]
  · rw [BitVec.getLsbD_of_ge w k (by omega)]
    refine Finset.sum_eq_zero fun j hj => ?_
    have : k ≠ j := by have := Finset.mem_range.1 hj; omega
    simp [this]

theorem bitsPoly_append_replicate_false (bits : List Bool) (n : Nat) :
    bitsPoly (bits ++ List.replicate n false) = bitsPoly bits * X ^ n := by
  induction n with
  | zero => simp
  | succ n ih =>
    rw [List.replicate_succ', ← List.append_assoc]
    unfold bitsPoly at ih ⊢
    rw [List.foldl_concat, ih]
    simp [pow_succ, mul_assoc]

theorem degree_wordPoly_lt {w : Word} {n : Nat} (h : ∀ j, n ≤ j → w.getLsbD j = false) :
    (wordPoly w).degree < n := by
  refine (degree_lt_iff_coeff_zero _ n).2 fun j hj => ?_
  simp [coeff_wordPoly, h j hj]

/-- A difference in GF(2) is an exclusive or, and a product a conjunction. -/
theorem ite_xor_and : ∀ a t b : Bool, (if xor a (t && b) then (1 : ZMod 2) else 0) =
    (if a then 1 else 0) - if t then (if b then 1 else 0) else 0 := by
  decide

/-! ## The residue (R143) -/

section Residue

variable {c : Config} {gen : Word} {g : Generator} (hc : c.wf) (hg : checkGenerator c gen = .ok g)
include hc hg

theorem degree_wordPoly_generator : (wordPoly gen).degree = g.deg := by
  obtain ⟨-, -, htop, habove, -⟩ := checkGenerator_ok hc hg
  refine degree_eq_of_le_of_coeff_ne_zero ?_ (by simp [coeff_wordPoly, htop])
  exact (degree_le_iff_coeff_zero _ _).2 fun j hj => by simp [coeff_wordPoly, habove j (by exact_mod_cast hj)]

theorem monic_wordPoly_generator : (wordPoly gen).Monic := by
  obtain ⟨-, -, htop, -⟩ := checkGenerator_ok hc hg
  exact monic_of_degree_le g.deg (degree_wordPoly_generator hc hg).le (by simp [coeff_wordPoly, htop])

/-- One step of R134 takes the register's polynomial times x, plus the input, and subtracts the generator's where
TOP is set: the bit that leaves the register is cancelled by the generator's leading coefficient. -/
theorem wordPoly_engineStep {sr : Word} (v : Bool) (hsr : ∀ j, g.deg ≤ j → sr.getLsbD j = false) :
    wordPoly (engineStep g sr v) =
      wordPoly sr * X + C (if v then 1 else 0) - if engineTop g sr then wordPoly gen else 0 := by
  obtain ⟨hpos, -, htop, habove, -⟩ := checkGenerator_ok hc hg
  ext j
  rw [coeff_wordPoly, getLsbD_engineStep hc hg, coeff_sub, coeff_add,
    apply_ite (fun p : (ZMod 2)[X] => p.coeff j), coeff_wordPoly, coeff_zero]
  cases j with
  | zero =>
    rw [if_pos rfl, decide_eq_true (Nat.lt_of_succ_le hpos), Bool.true_and, ite_xor_and, coeff_mul_X_zero,
      coeff_C_zero, zero_add]
  | succ k =>
    rw [if_neg k.succ_ne_zero, Nat.add_sub_cancel, coeff_mul_X, coeff_wordPoly, coeff_C_succ, add_zero]
    rcases lt_trichotomy (k + 1) g.deg with hlt | heq | hgt
    · rw [decide_eq_true hlt, Bool.true_and, ite_xor_and]
    · have hlast : g.deg - 1 = k := by omega
      simp [engineTop, hlast, heq, htop]
    · simp [Nat.not_lt.2 hgt.le, hsr k (by omega), habove _ hgt]

/-- The engine is Horner's rule modulo the generator: from congruent polynomials, the register stays congruent to
the polynomial that takes in the same inputs without reduction. -/
theorem dvd_foldl_sub_engineRun {inputs : List Bool} {sr : Word} {p : (ZMod 2)[X]}
    (hsr : ∀ j, g.deg ≤ j → sr.getLsbD j = false) (hp : wordPoly gen ∣ p - wordPoly sr) :
    wordPoly gen ∣ inputs.foldl (fun p v => p * X + C (if v then 1 else 0)) p - wordPoly (engineRun g sr inputs) := by
  induction inputs generalizing sr p with
  | nil => exact hp
  | cons v vs ih =>
    refine ih (getLsbD_engineRun hc hg [v] sr hsr) ?_
    have hstep : p * X + C (if v then 1 else 0) - wordPoly (engineStep g sr v) =
        (p - wordPoly sr) * X + if engineTop g sr then wordPoly gen else 0 := by
      rw [wordPoly_engineStep hc hg v hsr]
      ring
    rw [hstep]
    refine dvd_add (hp.mul_right X) ?_
    split
    · exact dvd_rfl
    · exact dvd_zero _

/-- The engine's run from 0 leaves the remainder of its inputs' polynomial: the register's is congruent to it, and
of lower degree than the generator's. -/
theorem wordPoly_engineRun_zero (inputs : List Bool) :
    wordPoly (engineRun g 0 inputs) = bitsPoly inputs %ₘ wordPoly gen := by
  have hmonic := monic_wordPoly_generator hc hg
  have hzero : ∀ j, g.deg ≤ j → (0 : Word).getLsbD j = false := by simp
  have hdvd : wordPoly gen ∣ bitsPoly inputs - wordPoly (engineRun g 0 inputs) :=
    dvd_foldl_sub_engineRun hc hg hzero (by simp [wordPoly])
  have hlt : (wordPoly (engineRun g 0 inputs)).degree < (wordPoly gen).degree := by
    rw [degree_wordPoly_generator hc hg]
    exact degree_wordPoly_lt (getLsbD_engineRun hc hg inputs 0 hzero)
  rw [modByMonic_eq_of_dvd_sub hmonic hdvd, (modByMonic_eq_self_iff hmonic).2 hlt]

end Residue

/-- Settles O37: the engine's inputs are the message and d zero bits, whose polynomial is M · x^d. -/
theorem residueIsThePolynomialRemainder : Obligations.ResidueIsThePolynomialRemainder := by
  intro c gen g b hc hg
  refine ⟨toNat_lt_of_bits (getLsbD_crcResidue hc hg b), ?_⟩
  unfold crcResidue engineInput
  rw [residueOfRegister_eq, wordPoly_engineRun_zero hc hg, bitsPoly_append_replicate_false]

end Sys2Proof.Machine

/-! PROOFS. Fault entry (60_exceptions.md R183): the one state a fault leads to, and what STATUS reads there. -/

namespace Sys2Proof.Machine

/-! ## What STATUS reads after fault entry -/

/-- The value of RNZ in its place in STATUS, bit 5 (10_state.md R34). -/
theorem getLsbD_rnzPlaced (v : Bool) (i : Nat) :
    (if v then 1#32 <<< 5 else 0#32).getLsbD i = (decide (i = 5) && v) := by
  cases v with
  | false => simp
  | true => exact (BitVec.getLsbD_twoPow 5 i).trans (by simp [eq_comm])

theorem getLsbD_of_reserved_zero {w : Word} (h : statusReserved w = 0) {i : Nat} (hi : 6 ≤ i) :
    w.getLsbD i = false := by
  by_cases hlt : i < 32
  · have hres := congrArg (fun r => r.getLsbD (i - 6)) h
    have hin : i - 6 < 26 := by omega
    simpa [statusReserved, BitVec.getLsbD_extractLsb', hin, Nat.add_sub_cancel' hi] using hres
  · exact BitVec.getLsbD_of_ge w i (Nat.le_of_not_lt hlt)

/-- STATUS without FAULT and CAUSE is RNZ alone where the reserved bits are 0 (10_state.md R34). -/
theorem clear_fault_cause_of_reserved_zero {w : Word} (h : statusReserved w = 0) :
    w &&& ~~~0x1F#32 = if statusRnz w then 1#32 <<< 5 else 0#32 := by
  refine BitVec.eq_of_getLsbD_eq fun i _ => ?_
  rw [getLsbD_rnzPlaced, BitVec.getLsbD_and]
  rcases lt_trichotomy i 5 with hlt | rfl | hgt
  · interval_cases i <;> simp
  · simp [statusRnz]
  · simp [getLsbD_of_reserved_zero h hgt, hgt.ne']

/-- R183: STATUS then reads `1 | (c << 1) | (RNZ << 5)`. -/
theorem statusEnterFault_of_reserved_zero {w : Word} (c : Cause) (h : statusReserved w = 0) :
    statusEnterFault w c =
      1#32 ||| ((causeCode c).setWidth 32 <<< 1) ||| (if statusRnz w then 1#32 <<< 5 else 0#32) := by
  unfold statusEnterFault
  rw [clear_fault_cause_of_reserved_zero h, BitVec.or_assoc, BitVec.or_comm]

/-! ## The state after a fault -/

/-- A step that halts a running block is the fault entry of a cause, with the word at the front of the command
port taken off it and recorded. -/
theorem step_fault {s t : State} (hs : s.halted = false) (h : step s = .next t) (ht : t.halted = true) :
    ∃ c w rest, s.cmdPort = w :: rest ∧ t = (takeFault c w s).takeWord := by
  rcases step_cases s with ⟨hh, -⟩ | ⟨-, -, e⟩ | ⟨w, why, -, hd, e⟩ | ⟨i, words, bytes, u, -, hd, hx, e⟩
  · cases hs.symm.trans hh
  · cases e.symm.trans h
    cases hs.symm.trans ht
  · cases e.symm.trans h
    obtain ⟨rest, hp⟩ := decode_illegal_head hd
    exact ⟨.illegalCmd, w, rest, hp, rfl⟩
  · cases e.symm.trans h
    obtain ⟨rest, hp⟩ := List.head?_eq_some_iff.1 (decode_command_head hd)
    rcases exec_halted hs hx with ⟨hu, -⟩ | ⟨hu, c, -, rfl⟩
    · rw [halted_retire, hu] at ht
      cases ht
    · exact ⟨c, cmdWord i, rest, hp, if_pos hu⟩

/-- Settles O16: every fault is one fault entry, whose STATUS the laws of `statusEnterFault` give field by
field. -/
theorem faultEntryIsPrecise : Obligations.FaultEntryIsPrecise := by
  intro s t hs h ht
  obtain ⟨c, w, rest, hp, rfl⟩ := step_fault hs h ht
  exact ⟨c, w, rest, hp, rfl, step_halted ht, statusFault_enterFault s.status c,
    statusCause_enterFault s.status c, statusRnz_enterFault s.status c, statusReserved_enterFault s.status c,
    statusEnterFault_of_reserved_zero c⟩

end Sys2Proof.Machine

/-! PROOFS. The encoding (30_encoding.md): decoding and encoding are inverse to each other (R70, R71, R79), and
the decoder agrees with the opcode table (R80). -/

namespace Sys2Proof

/-! ## Decoding an encoded command -/

/-- The operand word of a command, 0 where it takes none. -/
def operandWord (i : Instr) : Word := (operandWords i).headD 0

/-- The command's word decodes to the command, given its operand word and its data bytes. -/
theorem decodeWord_cmdWord (i : Instr) : decodeWord (cmdWord i) (operandWord i) (encodeData i) = .ok i := by
  unfold decodeWord decodeOpcode operandWord
  cases i with
  | setBit s index v => simp [cmdWord, operandWords, unlessDestination]
  | pushBit s v => simp [cmdWord, unlessDestination]
  | injectBurst s burstBits fill => simp [cmdWord, operandWords, unlessDestination]
  | fromBytes d data => simp [cmdWord, encodeData, unlessMode, unlessSource]
  | newEmpty d capBits => simp [cmdWord, operandWords, unlessMode, unlessSource]
  | _ => simp [cmdWord, operandWords, unlessMode, unlessDestination]

/-- A command's word announces the operand words that the encoder writes (R78). -/
theorem operandWordCount_cmdWord (i : Instr) : operandWordCount (cmdWord i) = (operandWords i).length := by
  cases i <;> simp [operandWordCount, cmdWord, operandWords]

/-- A command's word and operand word announce the data bytes that the encoder writes (R77). -/
theorem dataByteCount_cmdWord {i : Instr} (hi : i.wellFormed = true) :
    dataByteCount (cmdWord i) (operandWord i) = (encodeData i).length := by
  cases i with
  | fromBytes d data =>
    have hlt : data.length < 2 ^ 32 := of_decide_eq_true hi
    simpa [dataByteCount, cmdWord, operandWord, operandWords, encodeData] using hlt
  | _ => simp [dataByteCount, cmdWord, encodeData]

theorem encodeData_eq_nil {i : Instr} (h : operandWords i = []) : encodeData i = [] := by
  cases i with
  | fromBytes d data => cases h
  | _ => rfl

/-- A command takes one operand word or none (R78). -/
theorem operandWords_tail (i : Instr) : (operandWords i).tail = [] := by cases i <;> rfl

/-- All of an encoded command has arrived, whatever stands behind it. -/
theorem arrived_encode {i : Instr} (hi : i.wellFormed = true) (words : List Word) (bytes : List Byte) :
    arrived (cmdWord i) (operandWords i ++ words) (encodeData i ++ bytes) =
      some ⟨operandWord i, encodeData i, words, bytes⟩ := by
  have hcount := operandWordCount_cmdWord i
  have hdata := dataByteCount_cmdWord hi
  unfold operandWord at hdata ⊢
  unfold arrived
  rw [hcount]
  rcases hw : operandWords i with - | ⟨imm, rest⟩
  · simp [encodeData_eq_nil hw]
  · obtain rfl : rest = [] := by simpa [hw] using operandWords_tail i
    simp only [hw, List.headD_cons] at hdata
    simp [hdata]

/-- Settles O1: the encoder's word, operand word and data bytes arrive as they were written, and decode to the
command. -/
theorem decodeOfEncodeIsTheCommand : Obligations.DecodeOfEncodeIsTheCommand := by
  intro i words bytes hi
  simp only [encode, List.cons_append, decode, arrived_encode hi, decodeWord_cmdWord]

/-! ## Encoding a decoded command -/

/-- What has arrived behind a command word: nothing where it takes no operand word, else its operand word and
as many data bytes as that word says. -/
theorem arrived_some {w : Word} {rest : List Word} {bytes : List Byte} {a : Arrived}
    (h : arrived w rest bytes = some a) :
    (operandWordCount w = 0 ∧ a = ⟨0, [], rest, bytes⟩) ∨
      (operandWordCount w ≠ 0 ∧ rest = a.imm :: a.words ∧ bytes = a.data ++ a.bytes ∧
        a.data.length = dataByteCount w a.imm) := by
  unfold arrived at h
  split at h
  · next h0 => exact .inl ⟨h0, (Option.some.inj h).symm⟩
  next h0 =>
  split at h
  · cases h
  split at h
  · next hlen =>
    cases h
    exact .inr ⟨h0, rfl, (List.take_append_drop _ _).symm, List.length_take_of_le hlen⟩
  · cases h

/-- A decoded command's word stands at the front, everything behind it that belongs to it has arrived, and the
word decodes to it. -/
theorem decode_command {words words' : List Word} {bytes bytes' : List Byte} {i : Instr}
    (h : decode words bytes = .command i words' bytes') :
    ∃ w rest a, words = w :: rest ∧ arrived w rest bytes = some a ∧ decodeWord w a.imm a.data = .ok i ∧
      words' = a.words ∧ bytes' = a.bytes := by
  cases words with
  | nil => cases h
  | cons w rest =>
    unfold decode at h
    dsimp only at h
    (repeat' split at h) <;> cases h
    next _ a ha _ hd => exact ⟨w, rest, a, rfl, ha, hd, rfl, rfl⟩

/-- Settles O2: what arrived is what the decoded command's encoder writes, in each of the three forms of
`decodeWord_ok`. -/
theorem decodedInputIsTheEncoding : Obligations.DecodedInputIsTheEncoding := by
  intro words bytes i words' bytes' h
  obtain ⟨w, rest, a, rfl, ha, hd, rfl, rfl⟩ := decode_command h
  obtain ⟨rfl, -, hform⟩ := decodeWord_ok hd
  rcases arrived_some ha with ⟨h0, rfl⟩ | ⟨h0, rfl, rfl, hlen⟩
  · rcases hform with ⟨-, hw, hb, hwf⟩ | ⟨h1, -⟩ | ⟨h1, -⟩
    · simp [encode, hw, hb, hwf]
    · omega
    · omega
  · rcases hform with ⟨h1, -⟩ | ⟨-, hop, hw, hb, hwf⟩ | ⟨-, hop, d, rfl⟩
    · omega
    · have hnil : a.data = [] := List.eq_nil_of_length_eq_zero (by rw [hlen, dataByteCount, if_neg hop])
      simp [encode, hw, hb, hwf, hnil]
    · rw [dataByteCount, if_pos hop] at hlen
      simp [encode, operandWords, encodeData, Instr.wellFormed, hlen, a.imm.isLt]

/-- Settles O4: a word of a row decodes, and to a command of no other row. -/
theorem decodeAgreesWithTheTable : Obligations.DecodeAgreesWithTheTable := by
  intro w imm data r hr
  constructor
  · intro hm
    obtain ⟨i, hd⟩ := decodeWord_of_matches hr hm imm data
    exact ⟨i, hd, (opcodeRow_of_matches hd hr hm).symm⟩
  · rintro ⟨i, hd, rfl⟩
    exact (matches_of_decodeWord hd).2

/-- Settles O5, by running the decoder on the eight words. -/
theorem specWordsDecode : Obligations.SpecWordsDecode := by
  unfold Obligations.SpecWordsDecode
  decide

end Sys2Proof

/-! PROOFS. The step, the host port and the ends of runs (30_encoding.md R70, 60_exceptions.md R184, R193,
70_reset_and_hazards.md R210, R211, R219); the invariant at reset and after every step. -/

namespace Sys2Proof.Machine

variable {s t : State}

/-! ## The invariant -/

/-- Settles O14: each of the four things a step can do keeps the invariant. -/
theorem everyStepKeepsTheInvariant : Obligations.EveryStepKeepsTheInvariant :=
  fun _ _ hi h => step_keeps_inv hi h

/-- Settles O13, for the standard configuration after checking that it is legal. -/
theorem resetHasTheInvariant : Obligations.ResetHasTheInvariant :=
  ⟨fun _ hc => inv_resetWith_draws hc 0, inv_resetWith_draws (c := Config.standard) (by decide) 0⟩

/-! ## Reset -/

theorem halted_hostReset (s : State) : (hostReset s).halted = false := by
  simp [State.halted, hostReset, State.resetWith, statusFault]

/-- Settles O11, field by field. -/
theorem resetStateIsTheTable : Obligations.ResetStateIsTheTable := by
  intro c h
  refine ⟨State.slot_resetWith h c, rfl, rfl, rfl, ?_, ?_, ?_, ?_⟩
  · simp [State.resetWith, statusFault]
  · simp [State.resetWith, statusCause]
  · simp [State.resetWith, statusRnz]
  · simp [State.resetWith, statusReserved]

/-- Settles O12: a host reset is the reset state, whose command port is empty. -/
theorem hostResetClearsAllButConfiguration : Obligations.HostResetClearsAllButConfiguration := fun s h =>
  ⟨State.slot_resetWith h s.cfg, rfl, rfl, rfl, halted_hostReset s, rfl, rfl, rfl, step_idle rfl⟩

/-! ## The step -/

/-- Settles O6: retiring a command is what the statement says, since the command has not touched the ports. -/
theorem stepRunsTheDecodedCommand : Obligations.StepRunsTheDecodedCommand := by
  intro s t i words bytes hs hd he
  obtain ⟨hports, -⟩ := exec_ports he
  rw [step_command hs hd he, State.retire, State.takeWord, hports]

/-- Settles O10: so it is in each of the four cases of a step. -/
theorem everyStepGivesANextState : Obligations.EveryStepGivesANextState := by
  intro s
  rcases step_cases s with ⟨-, h⟩ | ⟨-, -, h⟩ | ⟨w, why, -, -, h⟩ | ⟨i, words, bytes, t, -, -, -, h⟩
  all_goals exact ⟨_, h⟩

/-- The block waits while no whole command has arrived. -/
theorem step_waiting (hs : s.halted = false) (hd : decode s.cmdPort s.dataPort = .waiting) : step s = .next s := by
  unfold step
  simp [hs, hd]

/-- A command's word is never illegal, so without all its operands it waits (R70). -/
theorem decode_waiting_of_not_arrived {i : Instr} {rest : List Word} {bytes : List Byte}
    (h : arrived (cmdWord i) rest bytes = none) : decode (cmdWord i :: rest) bytes = .waiting := by
  simp only [decode, h]
  cases hd : decodeWord (cmdWord i) 0 [] with
  | ok j => rfl
  | error why =>
    have := decodeWord_cmdWord i
    rw [decodeWord_error_indep hd] at this
    cases this

theorem not_arrived_without_operand {i : Instr} (h : operandWords i ≠ []) (bytes : List Byte) :
    arrived (cmdWord i) [] bytes = none := by
  have hcount : operandWordCount (cmdWord i) ≠ 0 := by
    rw [operandWordCount_cmdWord]
    exact fun h0 => h (List.eq_nil_of_length_eq_zero h0)
  simp [arrived, hcount]

theorem not_arrived_without_data {i : Instr} (hi : i.wellFormed = true) {bytes : List Byte}
    (h : bytes.length < (encodeData i).length) : arrived (cmdWord i) (operandWords i) bytes = none := by
  cases i with
  | fromBytes d data =>
    have hdata := dataByteCount_cmdWord hi
    have hcount := operandWordCount_cmdWord (.fromBytes d data)
    simp only [operandWord, operandWords, List.headD_cons, List.length_singleton] at hdata hcount
    simp [arrived, operandWords, hdata, hcount, h]
  | _ => simp [encodeData] at h

/-- Settles O8: an empty port, a missing operand word, missing data bytes. -/
theorem blockWaitsForAWholeCommand : Obligations.BlockWaitsForAWholeCommand := by
  refine fun s hs => ⟨step_idle, fun i hw hp => step_waiting hs ?_, fun i hi hp hlen => step_waiting hs ?_⟩
  · rw [hp]
    exact decode_waiting_of_not_arrived (not_arrived_without_operand hw _)
  · rw [hp]
    exact decode_waiting_of_not_arrived (not_arrived_without_data hi hlen)

/-! ## A command submitted to an idle block -/

/-- The block has run a command of which `words` and `bytes` stand behind its word: they stay where it faulted
(R184), and are gone where it did not. -/
def afterCommand (words : List Word) (bytes : List Byte) (t : State) : State :=
  if t.halted then withPorts words bytes t else t

@[simp] theorem halted_withPorts (ws : List Word) (bs : List Byte) (s : State) :
    (withPorts ws bs s).halted = s.halted := rfl

theorem withPorts_self {ws : List Word} {bs : List Byte} (hw : t.cmdPort = ws) (hb : t.dataPort = bs) :
    withPorts ws bs t = t := by
  subst hw hb
  rfl

theorem step_hostSubmit {i : Instr} (hs : s.halted = false) (hw : s.cmdPort = []) (hb : s.dataPort = [])
    (hi : i.wellFormed = true) (he : exec i s = .next t) :
    step (hostSubmit i s) = .next (afterCommand (operandWords i) (encodeData i) t) := by
  have hports : hostSubmit i s = withPorts (encode i) (encodeData i) s := by
    simp [hostSubmit, withPorts, hw, hb]
  have hd : decode (encode i) (encodeData i) = .command i [] [] := by
    simpa using decodeOfEncodeIsTheCommand i [] [] hi
  have hx : exec i (withPorts (encode i) (encodeData i) s) = .next (withPorts (encode i) (encodeData i) t) := by
    rw [exec_withPorts, he]
    rfl
  obtain ⟨htw, htb, -⟩ := exec_ports he
  rw [hports, step_command (s := withPorts (encode i) (encodeData i) s) hs hd hx]
  unfold State.retire afterCommand
  rw [halted_withPorts]
  split
  · rfl
  · exact congrArg _ (withPorts_self (htw.trans hw) (htb.trans hb))

/-- Settles O7: `afterCommand` is the statement's state. -/
theorem submittedCommandRunsNext : Obligations.SubmittedCommandRunsNext :=
  fun _ _ _ hs hw hb hi he => step_hostSubmit hs hw hb hi he

/-! ## The halted block and ends of runs -/

theorem run_of_halted (hs : s.halted = true) (n : Nat) : core.run n s = .next s :=
  run_of_step_self (step_halted hs) n

theorem runEnded_of_halted (hs : s.halted = true) : s.runEnded = true ∧ s.runSucceeded = false := by
  simp [State.runEnded, State.runSucceeded, hs]

theorem runEnded_of_idle (hw : s.cmdPort = []) : s.runEnded = true := by simp [State.runEnded, hw]

theorem hostRead_hostSubmit (r : HostReg) (i : Instr) (s : State) : hostRead r (hostSubmit i s) = hostRead r s := by
  cases r <;> rfl

/-- Settles O9: writing to the ports leaves the block halted, and a halted block steps to itself. -/
theorem haltedBlockIgnoresAllButReset : Obligations.HaltedBlockIgnoresAllButReset := by
  intro s hs
  obtain ⟨hended, hfailed⟩ := runEnded_of_halted hs
  exact ⟨run_of_halted hs, fun w => run_of_halted (s := hostWord w s) hs,
    fun v => run_of_halted (s := hostByte v s) hs,
    fun i r => ⟨step_halted (s := hostSubmit i s) hs, hostRead_hostSubmit r i s⟩, hended, hfailed,
    halted_hostReset s⟩

/-- An input changes the ports alone. -/
theorem hostInput_withPorts (x : HostInput) (s : State) : ∃ ws bs, hostInput x s = withPorts ws bs s := by
  cases x <;> exact ⟨_, _, rfl⟩

/-- Whatever a halted block is sent, its run goes on to change the ports alone. -/
theorem hostRun_of_halted (xs : List HostInput) (hs : s.halted = true) :
    ∃ ws bs, hostRun xs s = .next (withPorts ws bs s) := by
  induction xs generalizing s with
  | nil => exact ⟨s.cmdPort, s.dataPort, rfl⟩
  | cons x xs ih =>
    obtain ⟨ws, bs, hx⟩ := hostInput_withPorts x s
    have hhalt : (withPorts ws bs s).halted = true := hs
    obtain ⟨ws', bs', hrun⟩ := ih hhalt
    exact ⟨ws', bs', by simp only [hostRun, takeArrived, hx, run_of_halted hhalt, hrun]; rfl⟩

/-- The run of one illegal word on an idle block. -/
theorem hostRun_illegal {w : Word} {why : Illegal} (hs : s.halted = false) (hw : s.cmdPort = [])
    (hd : decodeWord w 0 [] = .error why) : hostRun [.word w] s = .next (takeFault .illegalCmd w s) := by
  have hport : (hostInput (.word w) s).cmdPort = [w] := by simp [hostInput, hostWord, hw]
  have hstep : step (hostInput (.word w) s) = .next (takeFault .illegalCmd w (hostInput (.word w) s)).takeWord :=
    step_illegal hs (by rw [hport]; exact decode_illegal hd)
  rw [hostRun_cons hstep (by simp [hport]) (.inl (by simp))]
  simp [hostRun, hostInput, hostWord, takeFault, State.takeWord, hw]

/-- A run goes on from what its first command gives. -/
theorem hostRun_command {i : Instr} (hs : s.halted = false) (hw : s.cmdPort = []) (hb : s.dataPort = [])
    (hi : i.wellFormed = true) (he : exec i s = .next t) (rest : List HostInput) :
    hostRun (.command i :: rest) s = hostRun rest (afterCommand (operandWords i) (encodeData i) t) := by
  obtain ⟨htw, -⟩ := exec_ports he
  refine hostRun_cons (x := .command i) (step_hostSubmit hs hw hb hi he) (by simp [hostInput, hostSubmit, encode]) ?_ rest
  unfold afterCommand
  split
  · next ht => exact .inl ht
  · exact .inr (htw.trans hw)

/-- The run of one command has ended, successfully unless the command faulted. -/
theorem runEnded_afterCommand (ws : List Word) (bs : List Byte) (hw : t.cmdPort = []) :
    (afterCommand ws bs t).runEnded = true ∧ (afterCommand ws bs t).runSucceeded = !t.halted := by
  unfold afterCommand
  split
  · next ht =>
    rw [ht]
    exact runEnded_of_halted (s := withPorts ws bs t) ht
  · exact ⟨runEnded_of_idle hw, by simp [State.runSucceeded, runEnded_of_idle hw]⟩

/-- Settles O55: the runs of a halted block, of one illegal word and of one command. -/
theorem runThatFaultsHasEndedAndFailed : Obligations.RunThatFaultsHasEndedAndFailed := by
  refine ⟨fun s xs hs => ?_, fun s w why hs hw hd => ?_, fun s t i hs hw hb hi he => ?_⟩
  · obtain ⟨ws, bs, hrun⟩ := hostRun_of_halted xs hs
    obtain ⟨hended, hfailed⟩ := runEnded_of_halted (s := withPorts ws bs s) hs
    exact ⟨_, hrun, rfl, hended, hfailed⟩
  · exact ⟨hostRun_illegal hs hw hd, runEnded_of_halted (halted_takeFault _ _ _)⟩
  · obtain ⟨htw, -⟩ := exec_ports he
    obtain ⟨hended, hsucc⟩ := runEnded_afterCommand (operandWords i) (encodeData i) (htw.trans hw)
    refine ⟨_, hostRun_command hs hw hb hi he [], ?_, hended, hsucc⟩
    unfold afterCommand
    split <;> rfl

end Sys2Proof.Machine

/-! PROOFS. Faults (60_exceptions.md R181, R182, R185): the causes each command can raise, and the conditions
under which it raises them. -/

namespace Sys2Proof.Machine

variable {s t : State}

/-! ## The causes a command can raise (R182) -/

/-- Every fault that the pseudocode can end in has one of the causes `cs`. -/
def RaisesOnly {α : Type} (cs : List Cause) (x : Except Cause α) : Prop := ∀ c, x = .error c → c ∈ cs

theorem RaisesOnly.bind {α β : Type} {cs : List Cause} {x : Except Cause α} {f : α → Except Cause β}
    (hx : RaisesOnly cs x) (hf : ∀ a, RaisesOnly cs (f a)) : RaisesOnly cs (x >>= f) := by
  intro c h
  rcases bind_eq_error.1 h with h | ⟨a, -, h⟩
  · exact hx c h
  · exact hf a c h

theorem RaisesOnly.pure {α : Type} {cs : List Cause} {a : α} : RaisesOnly cs (Pure.pure a : Except Cause α) :=
  fun _ h => absurd h pure_ne_error

theorem RaisesOnly.error {α : Type} {cs : List Cause} {c : Cause} (hc : c ∈ cs) :
    RaisesOnly cs (.error c : Except Cause α) := by
  intro _ h
  cases h
  exact hc

theorem RaisesOnly.ite {α : Type} {cs : List Cause} {p : Prop} [Decidable p] {x y : Except Cause α}
    (hx : RaisesOnly cs x) (hy : RaisesOnly cs y) : RaisesOnly cs (if p then x else y) := by
  split
  · exact hx
  · exact hy

theorem raisesOnly_checkS {cs : List Cause} (hc : .badHandle ∈ cs) (s : State) (h : Handle) :
    RaisesOnly cs (checkS s h) := by
  intro c he
  obtain ⟨rfl, -⟩ := checkS_error.1 he
  exact hc

theorem raisesOnly_checkD {cs : List Cause} (hb : .badHandle ∈ cs) (hu : .slotInUse ∈ cs) (s : State) (h : Handle) :
    RaisesOnly cs (checkD s h) := by
  intro c he
  rcases checkD_error.1 he with ⟨rfl, -⟩ | ⟨rfl, -⟩
  · exact hb
  · exact hu

theorem raisesOnly_checkGenerator {cs : List Cause} (hc : .badGenerator ∈ cs) (c : Config) (gen : Word) :
    RaisesOnly cs (checkGenerator c gen) := by
  intro _ he
  cases checkGenerator_error he
  exact hc

section Allocation

variable {cs : List Cause} (hc : .allocFail ∈ cs) (c : Config) (b : Buffer)
include hc

theorem raisesOnly_alloc (n : Nat) : RaisesOnly cs (alloc c n) := by
  intro _ he
  obtain ⟨-, rfl⟩ := alloc_error.1 he
  exact hc

theorem raisesOnly_build (r : Word) : RaisesOnly cs (build c b r) := by
  intro _ he
  obtain ⟨-, rfl⟩ := build_error.1 he
  exact hc

theorem raisesOnly_pushBuffer (v : Bool) : RaisesOnly cs (pushBuffer c b v) := by
  intro _ he
  obtain ⟨rfl, -⟩ := pushBuffer_error he
  exact hc

theorem raisesOnly_pushBits (vs : List Bool) : RaisesOnly cs (pushBits c b vs) := by
  intro _ he
  cases pushBits_error he
  exact hc

end Allocation

theorem raisesOnly_runCrcEncode (d h : Handle) (gen : Word) (s : State) :
    RaisesOnly [.badHandle, .slotInUse, .badGenerator, .allocFail] (runCrcEncode d h gen s) :=
  .bind (raisesOnly_checkS (by decide) _ _) fun _ => .bind (raisesOnly_checkD (by decide) (by decide) _ _) fun _ =>
    .bind (raisesOnly_checkGenerator (by decide) _ _) fun _ => .bind (raisesOnly_build (by decide) _ _ _) fun _ =>
      .bind (raisesOnly_pushBits (by decide) _ _ _) fun _ => .pure

theorem raisesOnly_runCrcDecode (d h : Handle) (gen : Word) (s : State) :
    RaisesOnly [.badHandle, .slotInUse, .badGenerator, .allocFail] (runCrcDecode d h gen s) :=
  .bind (raisesOnly_checkS (by decide) _ _) fun _ => .bind (raisesOnly_checkD (by decide) (by decide) _ _) fun _ =>
    .bind (raisesOnly_checkGenerator (by decide) _ _) fun _ => .bind (raisesOnly_build (by decide) _ _ _) fun _ =>
      .pure

theorem raisesOnly_runFromBytes (d : Handle) (data : List Byte) (s : State) :
    RaisesOnly [.badHandle, .slotInUse, .allocFail] (runFromBytes d data s) :=
  .bind (raisesOnly_checkD (by decide) (by decide) _ _) fun _ =>
    .bind (raisesOnly_alloc (by decide) _ _) fun _ => .pure

theorem raisesOnly_runNewEmpty (d : Handle) (capBits : Word) (s : State) :
    RaisesOnly [.badHandle, .slotInUse, .allocFail] (runNewEmpty d capBits s) :=
  .bind (raisesOnly_checkD (by decide) (by decide) _ _) fun _ =>
    .bind (raisesOnly_alloc (by decide) _ _) fun _ => .pure

/-- A command that uses `S` can raise BAD_HANDLE. -/
theorem badHandle_mem_of_source {i : Instr} {h : Handle} (hs : source i = some h) :
    .badHandle ∈ possibleFaults i := by
  cases i with
  | fromBytes | newEmpty => cases hs
  | _ => exact List.mem_cons_self

/-- Each command raises only the causes of its row of R182. -/
theorem raisesOnly_runOf (i : Instr) (s : State) : RaisesOnly (possibleFaults i) (runOf i s) := by
  have hS : ∀ h, source i = some h → RaisesOnly (possibleFaults i) (checkS s h) := fun h hs =>
    raisesOnly_checkS (badHandle_mem_of_source hs) s h
  cases i with
  | fromBytes d data => exact raisesOnly_runFromBytes d data s
  | newEmpty d capBits => exact raisesOnly_runNewEmpty d capBits s
  | crcEncode d h gen => exact raisesOnly_runCrcEncode d h gen s
  | crcDecode d h gen => exact raisesOnly_runCrcDecode d h gen s
  | getBit h index => exact (hS h rfl).bind fun _ => .ite (.error (by simp [possibleFaults])) (.ite .pure .pure)
  | setBit h index v => exact (hS h rfl).bind fun _ => .ite (.error (by simp [possibleFaults])) .pure
  | pushBit h v =>
    exact (hS h rfl).bind fun _ => .bind (raisesOnly_pushBuffer (by simp [possibleFaults]) _ _ _) fun _ => .pure
  | popBit h => exact (hS h rfl).bind fun _ => .ite (.error (by simp [possibleFaults])) .pure
  | injectBurst h burstBits fill => exact (hS h rfl).bind fun _ => .ite .pure .pure
  | free h | getLen h | getCap h | getResidue h => exact (hS h rfl).bind fun _ => .pure

/-- Settles O17: outside the halted state a command halts the block by raising a fault, and raises only its own;
the codes are read off. -/
theorem faultsAreThoseOfTheTable : Obligations.FaultsAreThoseOfTheTable := by
  refine ⟨fun i s t hs he ht => ?_, by decide⟩
  rcases exec_halted hs he with ⟨hf, -⟩ | ⟨-, c, hc, rfl⟩
  · cases hf.symm.trans ht
  · exact ⟨c, raisesOnly_runOf i s c hc, rfl⟩

/-! ## The slot checks come first (R100, R185) -/

/-- A fault of the first part of some pseudocode is the pseudocode's. -/
theorem bind_of_error {α β : Type} {x : Except Cause α} {f : α → Except Cause β} {c : Cause} (h : x = .error c) :
    (x >>= f) = .error c := bind_eq_error.2 (.inl h)

/-- Pseudocode whose first part completes goes on with what it gives. -/
theorem bind_of_ok {α β : Type} {x : Except Cause α} {f : α → Except Cause β} {a : α} (h : x = .ok a) :
    (x >>= f) = f a := by
  rw [h]
  rfl

theorem runOf_of_checkS_error {i : Instr} {h : Handle} {c : Cause} (hs : source i = some h)
    (hc : checkS s h = .error c) : runOf i s = .error c := by
  cases i with
  | fromBytes | newEmpty => cases hs
  | _ =>
    cases hs
    exact bind_of_error hc

theorem runOf_of_checkD_error {i : Instr} {d : Handle} {c : Cause} (hd : destination i = some d)
    (hs : ∀ h, source i = some h → ∃ b, checkS s h = .ok b) (hc : checkD s d = .error c) :
    runOf i s = .error c := by
  cases i with
  | fromBytes | newEmpty =>
    cases hd
    exact bind_of_error hc
  | crcEncode d h gen | crcDecode d h gen =>
    cases hd
    obtain ⟨b, hb⟩ := hs h rfl
    exact (bind_of_ok hb).trans (bind_of_error hc)
  | _ => cases hd

/-- Settles O18: every command that uses `S` checks it first. -/
theorem unallocatedSourceIsBadHandle : Obligations.UnallocatedSourceIsBadHandle :=
  fun _ _ _ _ hs hbad => exec_of_error (runOf_of_checkS_error hs (checkS_error.2 ⟨rfl, hbad⟩))

/-- Settles O19: every command that uses `D` checks it once `S` has passed. -/
theorem unusableDestinationFaults : Obligations.UnusableDestinationFaults := by
  intro i s d _ hd hsrc
  have hS : ∀ h, source i = some h → ∃ b, checkS s h = .ok b := fun h hs => by
    obtain ⟨hn, b, hb⟩ := hsrc h hs
    exact ⟨b, checkS_ok.2 ⟨hn, hb⟩⟩
  exact ⟨fun hn => exec_of_error (runOf_of_checkD_error hd hS (checkD_error.2 (.inl ⟨rfl, hn⟩))),
    fun hn hused => exec_of_error (runOf_of_checkD_error hd hS (checkD_error.2 (.inr ⟨rfl, hn, hused⟩)))⟩

/-! ## The generator, the index and the length (R105, R106, R108, R130) -/

/-- Settles O20: the generator is checked once both slots have passed. -/
theorem generatorBelowTwoIsBadGenerator : Obligations.GeneratorBelowTwoIsBadGenerator := by
  intro s d h gen b _ hh hb hd hfree hgen
  have hS := checkS_ok.2 ⟨hh, hb⟩
  have hD : checkD s d = .ok () := checkD_ok.2 ⟨hd, hfree⟩
  have hG := checkGenerator_lt_two s.cfg hgen
  exact ⟨exec_of_error ((bind_of_ok hS).trans ((bind_of_ok hD).trans (bind_of_error hG))),
    exec_of_error ((bind_of_ok hS).trans ((bind_of_ok hD).trans (bind_of_error hG)))⟩

/-- Settles O21: the index and the length are checked once `S` has passed. -/
theorem accessOutsideTheBufferFaults : Obligations.AccessOutsideTheBufferFaults := by
  intro s h b _ hh hb
  have hS := checkS_ok.2 ⟨hh, hb⟩
  exact ⟨fun index hi => ⟨exec_of_error ((bind_of_ok hS).trans (if_pos hi)),
      fun v => exec_of_error ((bind_of_ok hS).trans (if_pos hi))⟩,
    fun h0 => exec_of_error ((bind_of_ok hS).trans (if_pos h0))⟩

/-! ## Storage beyond the limit (R101, R102, R107, R139, R140) -/

/-- A doubling that is needed and is beyond the limit fails. -/
theorem growBytes_beyond_limit {c : Config} (hc : c.wf) {sb nbl fuel : Nat} (hneed : 24 * sb < 4 * nbl)
    (hmax : c.maxSlotBytes < 2 * sb) : growBytes c nbl fuel sb = .error .allocFail := by
  have hover := (overFill_iff hc).2 hneed
  cases fuel with
  | zero => exact if_pos hover
  | succ fuel => exact (if_pos hover).trans (if_pos hmax)

theorem pushBuffer_of_growBytes_error {c : Config} {b : Buffer} {v : Bool} {e : Cause}
    (h : growBytes c (b.bl + 1) (b.bl + 1) b.sb = .error e) : pushBuffer c b v = .error e :=
  bind_of_error (bind_of_error h)

/-- Pushes that no doubling within the limit has room for fail. -/
theorem pushBits_beyond_limit {c : Config} (hc : c.wf) {b : Buffer} {vs : List Bool} (hwf : b.store.wf = true)
    (hvs : vs ≠ []) (hsb : b.sb ≤ c.maxSlotBytes)
    (hfull : ∀ k, b.sb * 2 ^ k ≤ c.maxSlotBytes → 24 * (b.sb * 2 ^ k) < 4 * (b.bl + vs.length)) :
    pushBits c b vs = .error .allocFail := by
  cases hp : pushBits c b vs with
  | error e => rw [pushBits_error hp]
  | ok out =>
    obtain ⟨-, hbl, -, -, hmax, hfit, k, hk, -⟩ := pushBits_ok hc hwf hp
    have hlimit : b.sb * 2 ^ k ≤ c.maxSlotBytes := by
      rw [← hk]
      rcases hmax with h | h
      · rw [h]; exact hsb
      · exact h
    have hroom := hfit hvs
    rw [hk, hbl] at hroom
    exact absurd hroom (Nat.not_le.2 (hfull k hlimit))

/-- What the two CRC commands do once their slots and generator have passed: the output copy, and for
`crc.encode` the pushes. -/
theorem runCrc_of_checks {d h : Handle} {gen : Word} {b : Buffer} {g : Generator} (hS : checkS s h = .ok b)
    (hD : checkD s d = .ok ()) (hG : checkGenerator s.cfg gen = .ok g) :
    runCrcDecode d h gen s = (build s.cfg b (crcResidue s.cfg g b) >>= fun out =>
      Pure.pure ((s.setSlot d (some out)).setRnz (decide (crcResidue s.cfg g b ≠ 0)))) ∧
    runCrcEncode d h gen s = (build s.cfg b (crcResidue s.cfg g b) >>= fun out =>
      pushBits s.cfg out (bitsMsbFirst (crcResidue s.cfg g b) g.deg) >>= fun out' =>
        Pure.pure ((s.setSlot d (some out')).setRnz (decide (crcResidue s.cfg g b ≠ 0)))) :=
  ⟨(bind_of_ok hS).trans ((bind_of_ok hD).trans (bind_of_ok hG)),
    (bind_of_ok hS).trans ((bind_of_ok hD).trans (bind_of_ok hG))⟩

theorem runCrcDecode_beyond_limit {d h : Handle} {gen : Word} {b : Buffer} {g : Generator} (hS : checkS s h = .ok b)
    (hD : checkD s d = .ok ()) (hG : checkGenerator s.cfg gen = .ok g)
    (hmax : s.cfg.maxSlotBytes < crcOutputSize b.bl) : runCrcDecode d h gen s = .error .allocFail := by
  rw [(runCrc_of_checks hS hD hG).1]
  exact bind_of_error (build_error.2 ⟨hmax, rfl⟩)

/-- `crc.encode` fails where no doubling of the output within the limit has room for the codeword: the copy, the
doubling by 0, if it is beyond the limit itself, and the pushes if it is not. -/
theorem runCrcEncode_beyond_limit {d h : Handle} {gen : Word} {b : Buffer} {g : Generator} (hc : s.cfg.wf)
    (hwf : b.store.wf = true) (hS : checkS s h = .ok b) (hD : checkD s d = .ok ())
    (hG : checkGenerator s.cfg gen = .ok g)
    (hfull : ∀ k, crcOutputSize b.bl * 2 ^ k ≤ s.cfg.maxSlotBytes →
      24 * (crcOutputSize b.bl * 2 ^ k) < 4 * (b.bl + g.deg)) : runCrcEncode d h gen s = .error .allocFail := by
  rw [(runCrc_of_checks hS hD hG).2]
  rcases Nat.lt_or_ge s.cfg.maxSlotBytes (crcOutputSize b.bl) with hmax | hmax
  · exact bind_of_error (build_error.2 ⟨hmax, rfl⟩)
  · have hpos := checkGenerator_deg_pos hG
    have hlen := length_bitsMsbFirst (crcResidue s.cfg g b) g.deg
    refine (bind_of_ok (build_ok.2 ⟨hmax, rfl⟩)).trans (bind_of_error ?_)
    refine pushBits_beyond_limit hc (Memory.wf_firstBytes _ hwf) (fun h0 => ?_) hmax (by rwa [hlen])
    rw [h0, List.length_nil] at hlen
    omega

theorem State.Inv.slot_lt {h : Handle} {b : Buffer} (hi : s.Inv) (hb : s.slot h = some b) : h.toNat < s.cfg.nslots :=
  (hi.slot_ok h b hb).1

theorem State.Inv.checkS_ok {h : Handle} {b : Buffer} (hi : s.Inv) (hb : s.slot h = some b) :
    checkS s h = .ok b := Machine.checkS_ok.2 ⟨hi.slot_lt hb, hb⟩

/-- Settles O22: the constructors' allocation, the push's doubling, the output copy and its growth. -/
theorem storageBeyondTheLimitIsAllocFail : Obligations.StorageBeyondTheLimitIsAllocFail := by
  refine ⟨fun s d hc _ hd hfree => ⟨fun data hmax => ?_, fun capBits hmax => ?_⟩,
    fun s h b v hi _ hb hneed hmax => ?_, fun s d h b gen n hi _ hd hfree hb hn htop habove => ?_⟩
  · have hD : checkD s d = .ok () := checkD_ok.2 ⟨hd, hfree⟩
    refine exec_of_error ((bind_of_ok hD).trans (bind_of_error (alloc_error.2 ⟨?_, rfl⟩)))
    rwa [fromBytesSize_eq hc]
  · have hD : checkD s d = .ok () := checkD_ok.2 ⟨hd, hfree⟩
    exact exec_of_error ((bind_of_ok hD).trans (bind_of_error (alloc_error.2 ⟨hmax, rfl⟩)))
  · have hneed' : 24 * b.sb < 4 * (b.bl + 1) := by
      simp only [Buffer.cap] at hneed
      omega
    exact exec_of_error ((bind_of_ok (hi.checkS_ok hb)).trans (bind_of_error
      (pushBuffer_of_growBytes_error (growBytes_beyond_limit hi.cfg_wf hneed' hmax))))
  · have hS := hi.checkS_ok hb
    have hD : checkD s d = .ok () := checkD_ok.2 ⟨hd, hfree⟩
    have hG := checkGenerator_of_top hi.cfg_wf hn htop habove
    refine ⟨fun hmax => exec_of_error (runCrcDecode_beyond_limit hS hD hG hmax), fun hfull => ?_⟩
    refine exec_of_error (runCrcEncode_beyond_limit hi.cfg_wf (hi.buffer_ok hb).store_wf hS hD hG fun k hk => ?_)
    have := hfull k hk
    simp only [crcOutputSize, ceilDiv8, generatorOfDegree] at this ⊢
    omega

end Sys2Proof.Machine

/-! PROOFS. The BitBuffer commands (40_bitbuffer.md R103 to R112): what each gives when it completes. -/

namespace Sys2Proof.Machine

variable {s : State} {h : Handle} {b : Buffer}

/-! ## Constructors (R103, R104) -/

/-- Settles O24: the storage reads as the data, and its bits as the data's bits at R6's order. -/
theorem fromBytesCreatesTheBuffer : Obligations.FromBytesCreatesTheBuffer := by
  intro s d data hc _ hd hfree hmax
  rw [← fromBytesSize_eq hc] at hmax ⊢
  refine ⟨_, exec_of_ok (runFromBytes_ok.2 ⟨hd, hfree, hmax, rfl⟩), rfl, rfl, rfl, Memory.wf_ofBytes data,
    fun k hk => ⟨?_, fun j hj => ?_⟩⟩
  · simp [Memory.read_ofBytes, hk]
  · have hbit : 8 * k + j < 8 * data.length := by omega
    have hbyte : (8 * k + j) / 8 = k := by omega
    have hplace : (8 * k + j) % 8 = j := by omega
    rw [Buffer.getElem?_bits hbit, Config.bitOrder_eq hc, Memory.bitRead_ofBytes, hbyte, hplace,
      List.getD_eq_getElem _ _ hk]

/-- Settles O25: the storage lists no byte, and its size is rounded up to whole bytes. -/
theorem newEmptyCreatesZeroedStorage : Obligations.NewEmptyCreatesZeroedStorage := by
  intro s d capBits _ hd hfree hmax
  refine ⟨_, exec_of_ok (runNewEmpty_ok.2 ⟨hd, hfree, hmax, rfl⟩), rfl, ?_, rfl, rfl, rfl, fun _ => rfl⟩
  simp only [Buffer.cap, newEmptySize, ceilDiv8]
  omega

/-! ## Bit accessors (R105 to R108) -/

/-- A bit that the buffer has at an index is the storage bit there, and the index is below BL. -/
theorem Buffer.getElem?_bits_eq_some {o : BitOrder} {i : Nat} {v : Bool} :
    (b.bits o)[i]? = some v ↔ i < b.bl ∧ b.store.bitRead o i = v := by
  by_cases hi : i < b.bl
  · rw [Buffer.getElem?_bits hi]
    simp [hi]
  · rw [List.getElem?_eq_none (by simpa using hi)]
    simp [hi]

/-- Settles O26: the two ways that `get_bit` completes. -/
theorem getBitReadsTheBit : Obligations.GetBitReadsTheBit := by
  intro s h index b _ hh hb
  refine ⟨fun v hv hcap => ?_, fun hbl hcap => ?_⟩
  · obtain ⟨hlt, rfl⟩ := Buffer.getElem?_bits_eq_some.1 hv
    exact exec_of_ok (runGetBit_ok.2 ⟨b, hh, hb, hcap, .inl ⟨hlt, rfl⟩⟩)
  · exact ⟨_, bitWord_eq_zero_or_one _, exec_of_ok (runGetBit_ok.2 ⟨b, hh, hb, hcap, .inr ⟨hbl, rfl⟩⟩)⟩

/-- Settles O27: `set_bit` is one bit write. -/
theorem setBitWritesOneBit : Obligations.SetBitWritesOneBit := by
  intro s h index v b hi _ hb hcap
  have hn := hi.slot_lt hb
  have hwf := (hi.buffer_ok hb).store_wf
  exact ⟨_, exec_of_ok (runSetBit_ok.2 ⟨b, hn, hb, hcap, rfl⟩), rfl, rfl, rfl, Buffer.bits_bitWrite _ _ _ hwf,
    fun j => Memory.bitRead_bitWrite _ _ _ j hwf, fun k hk => Memory.read_bitWrite _ _ _ k hk hwf⟩

/-- Where there is room nothing grows. -/
theorem growBytes_with_room {c : Config} {nbl fuel sb : Nat} (h : ¬ overFill c sb nbl = true) :
    growBytes c nbl fuel sb = .ok sb := by
  cases fuel with
  | zero => exact if_neg h
  | succ fuel => exact if_neg h

/-- Growth for one more bit, from a size filled as the invariant says: one doubling where 3/4 is passed, and none
where it is not. -/
theorem growBytes_one_more {c : Config} (hc : c.wf) (hok : b.Ok c)
    (hroom : 4 * (b.bl + 1) ≤ 3 * b.cap ∨ 2 * b.sb ≤ c.maxSlotBytes) :
    growBytes c (b.bl + 1) (b.bl + 1) b.sb = .ok (if 3 * b.cap < 4 * (b.bl + 1) then 2 * b.sb else b.sb) := by
  have hover : ∀ sb, overFill c sb (b.bl + 1) = true ↔ 24 * sb < 4 * (b.bl + 1) := fun _ => overFill_iff hc
  have hpos := hok.size_pos
  have hfill := hok.fill_le
  have hcap : b.cap = 8 * b.sb := rfl
  unfold growBytes
  by_cases hneed : 24 * b.sb < 4 * (b.bl + 1)
  · have hmax : ¬ c.maxSlotBytes < 2 * b.sb := by omega
    have hdone : ¬ overFill c (2 * b.sb) (b.bl + 1) = true := by
      rw [hover]
      omega
    rw [if_pos ((hover _).2 hneed), if_neg hmax, if_pos (by omega)]
    exact growBytes_with_room hdone
  · rw [if_neg (fun e => hneed ((hover _).1 e)), if_neg (by omega)]

/-- Settles O28: one bit written at BL, after the growth for one more bit. -/
theorem pushBitAppendsOneBit : Obligations.PushBitAppendsOneBit := by
  intro s h v b hi _ hb hroom
  have hn := hi.slot_lt hb
  have hok := hi.buffer_ok hb
  have hgrow := growBytes_one_more hi.cfg_wf hok hroom
  refine ⟨_, exec_of_ok (runPushBit_ok.2 ⟨b, _, hn, hb, hgrow, rfl⟩), Buffer.bits_append _ v _ hok.store_wf, rfl,
    rfl, ?_, fun k hk => Memory.read_bitWrite _ _ _ k hk hok.store_wf⟩
  have hcap : b.cap = 8 * b.sb := rfl
  change 8 * (if 3 * b.cap < 4 * (b.bl + 1) then 2 * b.sb else b.sb) = _
  split <;> omega

/-- One bit fewer is the valid bits without their last. -/
theorem Buffer.bits_shorten (o : BitOrder) (hb : b.bl ≠ 0) :
    b.bits o = ({ b with bl := b.bl - 1 } : Buffer).bits o ++ [b.store.bitRead o (b.bl - 1)] := by
  have hbl : List.range b.bl = List.range (b.bl - 1 + 1) := by rw [Nat.sub_add_cancel (by omega)]
  rw [Buffer.bits, hbl, List.range_succ, List.map_append]
  rfl

/-- Settles O29: the bits are split in one way into a beginning and a last bit. -/
theorem popBitReturnsTheLastBit : Obligations.PopBitReturnsTheLastBit := by
  intro s h b rest v _ hh hb hbits
  have hlen := congrArg List.length hbits
  simp only [Buffer.length_bits, List.length_append, List.length_singleton] at hlen
  have hne : b.bl ≠ 0 := by omega
  obtain ⟨hrest, hv⟩ := List.append_inj' ((Buffer.bits_shorten _ hne).symm.trans hbits) rfl
  obtain rfl : _ = v := List.singleton_inj.1 hv
  exact ⟨_, exec_of_ok (runPopBit_ok.2 ⟨b, hh, hb, hne, rfl⟩), hrest, by simp only; omega, rfl, rfl, rfl⟩

/-! ## Lifecycle and queries (R109 to R112) -/

/-- Settles O30: after the free the slot is FREE, so its check fails. -/
theorem freeReleasesTheSlot : Obligations.FreeReleasesTheSlot := by
  intro s h b _ hh hb
  refine ⟨exec_of_ok (runFree_ok.2 ⟨b, hh, hb, rfl⟩), exec_of_error (runOf_of_checkS_error rfl ?_)⟩
  exact checkS_error.2 ⟨rfl, .inr (State.slot_setSlot_self s h none)⟩

/-- Settles O31: BL ≤ CAP < 2^32, so no number wraps around. -/
theorem queriesReturnTheFields : Obligations.QueriesReturnTheFields := by
  intro s h b hi _ hb
  have hn := hi.slot_lt hb
  have hok := hi.buffer_ok hb
  have hcap := hok.cap_lt hi.cfg_wf
  have hlen := hok.length_le
  refine ⟨BitVec.ofNat 32 b.bl, BitVec.ofNat 32 b.cap, ?_, ?_, exec_of_ok (runGetLen_ok.2 ⟨b, hn, hb, rfl⟩),
    exec_of_ok (runGetCap_ok.2 ⟨b, hn, hb, rfl⟩), exec_of_ok (runGetResidue_ok.2 ⟨b, hn, hb, rfl⟩)⟩
  · exact Nat.mod_eq_of_lt (by omega)
  · exact Nat.mod_eq_of_lt hcap

end Sys2Proof.Machine

/-! PROOFS. The CRC commands (41_crc_engine.md): what they give when they complete (R140, R141), their laws
(R144, R145) from the division of polynomials over GF(2), and their trace (R146). -/

namespace Sys2Proof.Machine

variable {s t : State} {c : Config} {gen : Word} {g : Generator}

/-! ## The register and the two commands (R134, R140, R141) -/

/-- Settles O33: the register's bits from d on stay 0. -/
theorem registerStaysWithinItsWidth : Obligations.RegisterStaysWithinItsWidth :=
  fun _ _ _ inputs hc hg => toNat_lt_of_bits (getLsbD_engineRun hc hg inputs 0 (by simp))

/-- Appending the `n` low bits of `r` to the copy that holds `r` ends where some doubling of the copy has room for
them: the output's bits, length, residue, and least size. -/
theorem exists_pushBits_copyOf {b : Buffer} {r : Word} {n k : Nat} (hc : c.wf) (hb : b.Ok c) (hn : 1 ≤ n)
    (hfit : 4 * (b.bl + n) ≤ 24 * (crcOutputSize b.bl * 2 ^ k)) (hmax : crcOutputSize b.bl * 2 ^ k ≤ c.maxSlotBytes) :
    ∃ out, pushBits c (copyOf b r) (bitsMsbFirst r n) = .ok out ∧
      out.bits c.bitOrder = b.bits c.bitOrder ++ bitsMsbFirst r n ∧ out.bl = b.bl + n ∧ out.res = r ∧
      4 * out.bl ≤ 24 * out.sb ∧ ∃ m, out.sb = crcOutputSize b.bl * 2 ^ m ∧
        (m = 0 ∨ 24 * (crcOutputSize b.bl * 2 ^ (m - 1)) < 4 * out.bl) := by
  have hlen := length_bitsMsbFirst r n
  have hne : bitsMsbFirst r n ≠ [] := List.ne_nil_of_length_pos (by omega)
  obtain ⟨out, hp⟩ := pushBits_ends hc (b := copyOf b r) (vs := bitsMsbFirst r n) k (Nat.le_max_right _ _)
    (hlen.symm ▸ hfit) hmax
  obtain ⟨hbits, hbl, hres, -, -, hroom, hsize⟩ := pushBits_ok hc (Memory.wf_firstBytes _ hb.store_wf) hp
  rw [hlen] at hbl
  exact ⟨out, hp, hbits.trans (congrArg (· ++ _) (bits_firstBytes _ b _ _)), hbl, hres, hroom hne, hsize⟩

/-- Settles O34: the residue's bits are pushed on the copy of the message. -/
theorem encodeAppendsTheResidue : Obligations.EncodeAppendsTheResidue := by
  intro s d h gen n k b hi _ hb hd hfree hn htop habove hfit hmax
  have hG := checkGenerator_of_top hi.cfg_wf hn htop habove
  have hone : crcOutputSize b.bl ≤ s.cfg.maxSlotBytes := (Nat.le_mul_of_pos_right _ (Nat.two_pow_pos k)).trans hmax
  have hfit' : 4 * (b.bl + n) ≤ 24 * (crcOutputSize b.bl * 2 ^ k) := by
    simp only [crcOutputSize, ceilDiv8]
    omega
  obtain ⟨out, hp, hbits, hbl, hres, hroom, m, hsb, hleast⟩ :=
    exists_pushBits_copyOf (r := crcResidue s.cfg (generatorOfDegree gen n) b) hi.cfg_wf (hi.buffer_ok hb) hn hfit' hmax
  refine ⟨out, exec_of_ok (runCrcEncode_ok.2
    ⟨b, _, out, hi.slot_lt hb, hb, hd, hfree, hG, hone, hp, by rw [hres]⟩), hres, hbl, ?_, m, hsb, ?_,
    hleast.imp id fun h => ?_⟩
  · rw [hbits, hres, bitsMsbFirst_eq]
  · simp only [Buffer.cap]
    omega
  · simp only [crcOutputSize, ceilDiv8] at h
    omega

/-- Settles O35: the output is the copy of the source's bytes that hold valid bits. -/
theorem decodeCopiesAndVerifies : Obligations.DecodeCopiesAndVerifies := by
  intro s d h gen n b hi _ hb hd hfree hn htop habove hmax
  have hh := hi.slot_lt hb
  have hG := checkGenerator_of_top hi.cfg_wf hn htop habove
  refine ⟨copyOf b (crcResidue s.cfg (generatorOfDegree gen n) b),
    exec_of_ok (runCrcDecode_ok.2 ⟨b, _, hh, hb, hd, hfree, hG, hmax, rfl⟩), rfl, rfl, bits_firstBytes _ b _ _,
    rfl, fun k hk => ?_⟩
  have hlt : k < ceilDiv8 b.bl := by
    unfold ceilDiv8
    omega
  simp only [copyOf, Memory.read_firstBytes, if_pos hlt]

/-! ## Polynomials of bit sequences -/

open Polynomial

theorem bitsPoly_foldl (bits : List Bool) (p : (ZMod 2)[X]) :
    bits.foldl (fun p v => p * X + C (if v then 1 else 0)) p = p * X ^ bits.length + bitsPoly bits := by
  unfold bitsPoly
  induction bits generalizing p with
  | nil => simp
  | cons v vs ih =>
    rw [List.foldl_cons, List.foldl_cons, ih, ih (0 * X + _), List.length_cons]
    ring

theorem bitsPoly_append (xs ys : List Bool) : bitsPoly (xs ++ ys) = bitsPoly xs * X ^ ys.length + bitsPoly ys := by
  rw [← bitsPoly_foldl, bitsPoly, List.foldl_append]
  rfl

theorem bitsPoly_cons (v : Bool) (vs : List Bool) :
    bitsPoly (v :: vs) = C (if v then 1 else 0) * X ^ vs.length + bitsPoly vs := by
  rw [← bitsPoly_foldl, bitsPoly, List.foldl_cons, zero_mul, zero_add]

theorem bitsPoly_bitsMsbFirst_sum (w : Word) (n : Nat) :
    bitsPoly (bitsMsbFirst w n) = ∑ k ∈ Finset.range n, if w.getLsbD k then X ^ k else 0 := by
  induction n with
  | zero => rfl
  | succ n ih =>
    rw [bitsMsbFirst, bitsPoly_cons, ih, Finset.sum_range_succ, length_bitsMsbFirst, add_comm]
    cases w.getLsbD n <;> simp

/-- The low bits of a word, most significant first, are the word's polynomial where all others are 0. -/
theorem bitsPoly_bitsMsbFirst {w : Word} {n : Nat} (hn : n ≤ 32) (h : ∀ j, n ≤ j → w.getLsbD j = false) :
    bitsPoly (bitsMsbFirst w n) = wordPoly w := by
  rw [bitsPoly_bitsMsbFirst_sum, wordPoly]
  refine Finset.sum_subset (Finset.range_mono hn) fun j _ hj => ?_
  simp [h j (by simpa using hj)]

/-- Inverting one bit adds one power of x. -/
theorem bitsPoly_set_not {bits : List Bool} {i : Nat} {v : Bool} (h : bits[i]? = some v) :
    ∃ k, bitsPoly (bits.set i (!v)) = bitsPoly bits + X ^ k := by
  induction bits generalizing i with
  | nil => cases h
  | cons u us ih =>
    cases i with
    | zero =>
      obtain rfl : u = v := by simpa using h
      refine ⟨us.length, ?_⟩
      rw [List.set_cons_zero, bitsPoly_cons, bitsPoly_cons]
      cases u with
      | false => simp [add_comm]
      | true => simp [add_right_comm, CharTwo.add_self_eq_zero]
    | succ i =>
      obtain ⟨k, hk⟩ := ih (i := i) (by simpa using h)
      exact ⟨k, by rw [List.set_cons_succ, bitsPoly_cons, bitsPoly_cons, hk, List.length_set, add_assoc]⟩

theorem wordPoly_eq_zero_iff {w : Word} : wordPoly w = 0 ↔ w = 0 := by
  refine ⟨fun h => BitVec.eq_of_getLsbD_eq fun i _ => ?_, fun h => by simp [h, wordPoly]⟩
  have hcoeff := coeff_wordPoly w i
  rw [h, coeff_zero] at hcoeff
  by_contra hne
  simp [by simpa using hne] at hcoeff

/-! ## When the residue is 0 (R143) -/

section Residue

variable (hc : c.wf) (hg : checkGenerator c gen = .ok g)
include hc hg

/-- The residue is 0 exactly when the generator divides M · x^d. -/
theorem crcResidue_eq_zero_iff (b : Buffer) :
    crcResidue c g b = 0 ↔ wordPoly gen ∣ bitsPoly (b.bits c.bitOrder) * X ^ g.deg := by
  obtain ⟨-, hres⟩ := residueIsThePolynomialRemainder c gen g b hc hg
  rw [← wordPoly_eq_zero_iff, hres, modByMonic_eq_zero_iff_dvd (monic_wordPoly_generator hc hg)]

/-- The generator divides every codeword: the residue is what M · x^d lacks, and subtraction is addition. -/
theorem generator_dvd_codeword (b : Buffer) :
    wordPoly gen ∣ bitsPoly (b.bits c.bitOrder ++ bitsMsbFirst (crcResidue c g b) g.deg) := by
  obtain ⟨-, hle, -⟩ := checkGenerator_ok hc hg
  obtain ⟨-, hres⟩ := residueIsThePolynomialRemainder c gen g b hc hg
  rw [bitsPoly_append, length_bitsMsbFirst, bitsPoly_bitsMsbFirst (by omega) (getLsbD_crcResidue hc hg b), hres,
    ← CharTwo.sub_eq_add]
  exact ⟨_, sub_eq_of_eq_add' (modByMonic_add_div _ _).symm⟩

/-- A generator that divides a power of x is a power of x, so it has one set bit. -/
theorem set_bits_eq_of_dvd_X_pow {n p q : Nat} (hdvd : wordPoly gen ∣ X ^ n) (hp : gen.getLsbD p = true)
    (hq : gen.getLsbD q = true) : p = q := by
  obtain ⟨m, -, hassoc⟩ := (dvd_prime_pow prime_X n).1 hdvd
  have hpow : wordPoly gen = X ^ m :=
    eq_of_monic_of_associated (monic_wordPoly_generator hc hg) (monic_X_pow m) hassoc
  have hbit : ∀ j, gen.getLsbD j = true → j = m := fun j hj => by
    have hcoeff := coeff_wordPoly gen j
    rw [hpow, coeff_X_pow, hj, if_pos rfl] at hcoeff
    by_contra hne
    simp [hne] at hcoeff
  rw [hbit p hp, hbit q hq]

end Residue

/-! ## The laws of the codeword (R144, R145) -/

theorem exec_cfg {i : Instr} (he : exec i s = .next t) : t.cfg = s.cfg := (exec_ports he).2.2

/-- What a `crc.decode` of the slot `d`, holding `x`, gives where it completes. -/
theorem exec_crcDecode_out {d e : Handle} {x y : Buffer} (hs : s.halted = false)
    (he : exec (.crcDecode e d gen) s = .next t) (ht : t.halted = false) (hx : s.slot d = some x)
    (hy : t.slot e = some y) : ∃ g, checkGenerator s.cfg gen = .ok g ∧ y.res = crcResidue s.cfg g x ∧
      statusRnz t.status = decide (y.res ≠ 0) := by
  obtain ⟨b, g, hb, hg, -, hres, hrnz⟩ := runCrcDecode_out (runOf_of_exec hs he ht) hy
  cases hx.symm.trans hb
  exact ⟨g, hg, hres, hrnz⟩

/-- The buffer that a completed `crc.encode` leaves is a codeword: the generator divides it. -/
theorem exec_crcEncode_dvd {d h : Handle} {x : Buffer} (hi : s.Inv) (hs : s.halted = false)
    (he : exec (.crcEncode d h gen) s = .next t) (ht : t.halted = false) (hx : t.slot d = some x) :
    wordPoly gen ∣ bitsPoly (x.bits s.cfg.bitOrder) := by
  obtain ⟨b, g, -, hg, hbits, -⟩ := runCrcEncode_out hi (runOf_of_exec hs he ht) hx
  rw [hbits]
  exact generator_dvd_codeword hi.cfg_wf hg b

/-- Settles O38: the generator divides the codeword, so the codeword times x^d too. -/
theorem roundTripHasResidueZero : Obligations.RoundTripHasResidueZero := by
  intro s t u d e h gen out hi hs he ht hde hu hout
  obtain ⟨x, g, hx, hg, -, hres, hrnz⟩ := runCrcDecode_out (runOf_of_exec ht hde hu) hout
  have hdvd := exec_crcEncode_dvd hi hs he ht hx
  have hzero : out.res = 0 := by
    rw [hres]
    rw [exec_cfg he] at hg ⊢
    exact (crcResidue_eq_zero_iff hi.cfg_wf hg x).2 (hdvd.mul_right _)
  exact ⟨hzero, by simp [hrnz, hzero]⟩

theorem bitsMsbFirst_zero (n : Nat) : bitsMsbFirst 0 n = List.replicate n false := by
  induction n with
  | zero => rfl
  | succ n ih =>
    rw [bitsMsbFirst, ih, List.replicate_succ]
    simp

theorem Buffer.bits_eq_nil (o : BitOrder) {b : Buffer} (h : b.bl = 0) : b.bits o = [] :=
  List.eq_nil_of_length_eq_zero (by simpa using h)

/-- Settles O39: length and determinism are the encoder's output; the empty message's polynomial is 0. -/
theorem encodingLengthDeterminismAndEmptyMessage : Obligations.EncodingLengthDeterminismAndEmptyMessage := by
  intro s t u d e h gen g b x y hi hs hg hb he ht hx
  obtain ⟨b', g', hb', hg', hbits, hbl, hres⟩ := runCrcEncode_out hi (runOf_of_exec hs he ht) hx
  cases hb.symm.trans hb'
  cases hg.symm.trans hg'
  refine ⟨hbl, fun h0 => ?_, fun hee hu hy => ?_⟩
  · have hnil := Buffer.bits_eq_nil s.cfg.bitOrder h0
    have hzero : crcResidue s.cfg g b = 0 :=
      (crcResidue_eq_zero_iff hi.cfg_wf hg b).2 (by simp [hnil, bitsPoly])
    rw [hbits, hres, hzero, hnil, bitsMsbFirst_zero]
    exact ⟨rfl, rfl⟩
  · obtain ⟨b', g', hb', hg', hbits', -, hres'⟩ := runCrcEncode_out (exec_keeps_inv hi he) (runOf_of_exec ht hee hu) hy
    obtain ⟨hsource, -⟩ := crcWritesOnlyDestinationAndRnz _ s t d h hs rfl rfl rfl he
    cases (hsource.trans hb).symm.trans hb'
    rw [exec_cfg he] at hg' hbits' hres'
    cases hg.symm.trans hg'
    exact ⟨hbits'.trans hbits.symm, hres'.trans hres.symm⟩

/-- Settles O40: the flipped codeword times x^d is a power of x modulo the generator, and a generator of two set
bits divides no power of x. -/
theorem singleBitFlipIsDetected : Obligations.SingleBitFlipIsDetected := by
  intro s t u v d e h gen index x y p q bit hi hs hpq hp hq he ht hx hbit hset hu hdec hv hy
  have hdvd := exec_crcEncode_dvd hi hs he ht hx
  obtain ⟨x', -, hx', -, rfl⟩ := runSetBit_ok.1 (runOf_of_exec ht hset hu)
  cases hx.symm.trans hx'
  obtain ⟨g, hg, hres, hrnz⟩ := exec_crcDecode_out hu hdec hv (State.slot_setSlot_self t d _) hy
  rw [State.setSlot_cfg, exec_cfg he] at hg hres
  obtain ⟨k, hk⟩ := bitsPoly_set_not hbit
  have hne : y.res ≠ 0 := fun hzero => by
    have hdvd' := (crcResidue_eq_zero_iff hi.cfg_wf hg _).1 (hres.symm.trans hzero)
    rw [Buffer.bits_bitWrite _ _ _ ((exec_keeps_inv hi he).buffer_ok hx).store_wf, hk, add_mul, ← pow_add,
      dvd_add_right (hdvd.mul_right _)] at hdvd'
    exact hpq (set_bits_eq_of_dvd_X_pow hi.cfg_wf hg hdvd' hp hq)
  exact ⟨hne, hrnz.trans (decide_eq_true hne)⟩

/-- Settles O41: the generator is x^d, which divides M · x^d. -/
theorem monomialGeneratorGivesResidueZero : Obligations.MonomialGeneratorGivesResidueZero := by
  intro c n g b hc hn hg
  have hbit : ∀ j, (1#32 <<< n).getLsbD j = decide (n = j) := fun j => BitVec.getLsbD_twoPow n j |>.trans (by
    simp [hn])
  obtain ⟨-, -, htop, -⟩ := checkGenerator_ok hc hg
  have hdeg : n = g.deg := by simpa [hbit] using htop
  have hpoly : wordPoly (1#32 <<< n) = X ^ g.deg := by
    ext j
    rw [coeff_wordPoly, hbit, coeff_X_pow, hdeg]
    simp [eq_comm]
  rw [crcResidue_eq_zero_iff hc hg, hpoly]
  exact dvd_mul_left _ _

/-! ## The normalizer and the trace (R138, R146) -/

/-- The normalizer of a big-endian host reverses the bytes, and its compensation reverses them back (R137). -/
theorem reverseBytes_reverseBytes (w : Word) : reverseBytes (reverseBytes w) = w :=
  residueOfRegister_eq { Config.standard with hostBigEndian := true } w

theorem extractLsb'_reverseBytes (w : Word) {k : Nat} (hk : k < 4) :
    (reverseBytes w).extractLsb' (8 * (3 - k)) 8 = w.extractLsb' (8 * k) 8 := by
  refine BitVec.eq_of_getLsbD_eq fun i hi => ?_
  unfold reverseBytes
  simp only [BitVec.getLsbD_append, BitVec.getLsbD_extractLsb']
  interval_cases k <;> interval_cases i <;> simp

/-- Settles O42: each byte takes its mirrored place, and so its own when reversed again. -/
theorem reverseBytesIsAnInvolution : Obligations.ReverseBytesIsAnInvolution :=
  ⟨reverseBytes_reverseBytes, fun w => ⟨extractLsb'_reverseBytes w (k := 0) (by decide),
    extractLsb'_reverseBytes w (k := 1) (by decide), extractLsb'_reverseBytes w (k := 2) (by decide),
    extractLsb'_reverseBytes w (k := 3) (by decide)⟩, by decide⟩

/-- The trace of a completed CRC command that emits it is its engine's run over the source buffer. -/
theorem traceOf_completed {i : Instr} {h : Handle} {b : Buffer} (htrace : s.cfg.traceEvents = true)
    (hcrc : isCrc i = true) (hsrc : source i = some h) (hgen : operandWords i = [gen]) (hb : s.slot h = some b)
    (hg : checkGenerator s.cfg gen = .ok g) (hr : runOf i s = .ok t) :
    traceOf i s = engineTrace g 0 0 (engineInput s.cfg.bitOrder g b) := by
  have hevents : h.toNat < s.cfg.nslots → crcEvents h gen s = engineTrace g 0 0 (engineInput s.cfg.bitOrder g b) :=
    fun hh => by simp only [crcEvents, checkS_ok.2 ⟨hh, hb⟩, hg]
  cases i with
  | crcEncode d h gen =>
    cases hsrc
    cases hgen
    obtain ⟨-, -, -, hh, -⟩ := runCrcEncode_ok.1 hr
    simp only [runOf] at hr
    simp only [traceOf, emitted, hr, htrace, if_true, hevents hh]
  | crcDecode d h gen =>
    cases hsrc
    cases hgen
    obtain ⟨-, -, hh, -⟩ := runCrcDecode_ok.1 hr
    simp only [runOf] at hr
    simp only [traceOf, emitted, hr, htrace, if_true, hevents hh]
  | _ => cases hcrc

theorem length_engineInput (o : BitOrder) (g : Generator) (b : Buffer) : (engineInput o g b).length = b.bl + g.deg := by
  simp [engineInput]

/-- The last event of a trace shows the register after all its inputs. -/
theorem getLast?_engineTrace (g : Generator) {xs : List Bool} (hxs : xs ≠ []) :
    ∃ ev, (engineTrace g 0 0 xs).getLast? = some ev ∧ ev.sr = engineRun g 0 xs := by
  have hpos := List.length_pos_iff.2 hxs
  have hlen := length_engineTrace g 0 0 xs
  obtain ⟨ev, hev⟩ : ∃ ev, (engineTrace g 0 0 xs).getLast? = some ev :=
    ⟨_, List.getLast?_eq_some_getLast (List.ne_nil_of_length_pos (by omega))⟩
  refine ⟨ev, hev, ?_⟩
  rw [List.getLast?_eq_getElem?, hlen] at hev
  obtain ⟨-, -, -, hsr⟩ := getElem_engineTrace g 0 0 xs _ ev hev
  rw [hsr, Nat.sub_add_cancel hpos, List.take_length]

/-- Settles O44: changing `traceEvents` changes no command, and a completed command's events are the engine's
steps. -/
theorem traceFollowsTheEngineAndChangesNothing : Obligations.TraceFollowsTheEngineAndChangesNothing := by
  refine ⟨fun i s on => exec_mapInert id (fun _ => on) s i,
    fun i s t h gen g b hs htrace hcrc hsrc hgen hb hg he ht => ?_⟩
  rw [traceOf_completed htrace hcrc hsrc hgen hb hg (runOf_of_exec hs he ht)]
  have hlen := length_engineInput s.cfg.bitOrder g b
  refine ⟨(length_engineTrace _ _ _ _).trans hlen, fun j ev hev => ?_, ?_⟩
  · obtain ⟨hindex, hrest⟩ := getElem_engineTrace _ _ _ _ j ev hev
    exact ⟨hindex.trans (Nat.zero_add j), hrest⟩
  · have hdeg := checkGenerator_deg_pos hg
    obtain ⟨ev, hev, hsr⟩ := getLast?_engineTrace g (List.ne_nil_of_length_pos (l := engineInput s.cfg.bitOrder g b)
      (by omega))
    exact ⟨ev, hev, by rw [hsr, crcResidue, residueOfRegister_eq]⟩

end Sys2Proof.Machine

/-! PROOFS. The injector (42_burst_injector.md), and what each command leaves alone (20_memory.md R55 to R57,
10_state.md R22 to R26). -/

namespace Sys2Proof.Machine

variable {s t : State}

/-! ## The injector (R160 to R168) -/

/-- Every bit after a burst of `n` bits at the byte offset `off`: byte by byte, the whole bytes, the partial one
and the rest. -/
theorem bitRead_burstWrites {m : Memory} (hm : m.wf = true) (len off n : Nat) (f : Fill) (j : Nat) :
    (burstWrites m len off (burstSize n) f).bitRead .msbFirst j =
      if 8 * off ≤ j ∧ j < 8 * off + n ∧ j < 8 * len then decide (f = .high) else m.bitRead .msbFirst j := by
  have hplace : 7 - j % 8 < 8 := by omega
  unfold Memory.bitRead
  rw [read_burstWrites hm, bitPlace]
  split
  · rw [if_pos (by omega), getLsbD_fillByte f _ hplace]
  split
  · rw [getLsbD_partialByte f _ _ _ (by omega) hplace]
    by_cases hj : j < 8 * off + n
    · rw [if_pos (by omega), if_pos (by omega)]
    · rw [if_neg (by omega), if_neg (by omega)]
  · rw [if_neg (by omega)]

theorem burstOffset_of_neg {b : Buffer} {n : Nat} (hx : lastOffset b n < 0) : burstOffset s b n = 0 :=
  if_neg (Int.not_le.2 hx)

/-- A draw lies in {0, …, X} (R162). -/
theorem burstOffset_le {b : Buffer} {n : Nat} (hx : 0 ≤ lastOffset b n) :
    (burstOffset s b n : Int) ≤ lastOffset b n := by
  have hlt : drawnOffset s.draws (lastOffset b n).toNat < (lastOffset b n).toNat + 1 := Nat.mod_lt _ (Nat.succ_pos _)
  rw [burstOffset, if_pos hx]
  omega

/-- Settles O45: the offset is the drawn one, and the burst's bits are those of its bytes. -/
theorem injectBurstOverwritesTheBurst : Obligations.InjectBurstOverwritesTheBurst := by
  intro s h burstBits fill b hi _ hb
  have hh := hi.slot_lt hb
  have hstore := (hi.buffer_ok hb).store_wf
  obtain ⟨n, hn⟩ : ∃ n, n = burstBits.toNat := ⟨_, rfl⟩
  rw [← hn]
  have hlast : lastOffset b n = ((b.bl + 7) / 8 : Nat) - ((n + 7) / 8 : Nat) - 1 := rfl
  refine ⟨{ b with store := burstWrites b.store (ceilDiv8 b.bl) (burstOffset s b n) (burstSize n) fill },
    burstOffset s b n, lastOffset b n, hlast, exec_of_ok (runInjectBurst_ok.2 ⟨b, hh, hb, ?_⟩),
    fun hx => ⟨burstOffset_le hx, ?_⟩, burstOffset_of_neg, rfl, rfl, rfl, fun j => ?_⟩
  · subst hn
    rcases lt_or_ge (lastOffset b burstBits.toNat) 0 with hx | hx
    · exact .inr ⟨hx, if_neg (Int.not_le.2 hx)⟩
    · exact .inl ⟨hx, if_pos hx⟩
  · have hle := burstOffset_le (s := s) hx
    omega
  · rw [Config.bitOrder_eq hi.cfg_wf]
    exact bitRead_burstWrites hstore _ _ _ _ j

/-! ## Which slots a command allocates and frees (R22) -/

/-- A command that completes found its source allocated. -/
theorem runOf_source {i : Instr} {h : Handle} (hr : runOf i s = .ok t) (hs : source i = some h) :
    ∃ b, s.slot h = some b := by
  cases hb : s.slot h with
  | some b => exact ⟨b, rfl⟩
  | none => cases (runOf_of_checkS_error hs (checkS_error.2 ⟨rfl, .inr hb⟩)).symm.trans hr

/-- A command that completes found its destination free. -/
theorem runOf_destination {i : Instr} {d : Handle} (hr : runOf i s = .ok t) (hd : destination i = some d) :
    s.slot d = none := by
  cases i with
  | fromBytes d data =>
    cases hd
    obtain ⟨-, hfree, -⟩ := runFromBytes_ok.1 hr
    exact hfree
  | newEmpty d capBits =>
    cases hd
    obtain ⟨-, hfree, -⟩ := runNewEmpty_ok.1 hr
    exact hfree
  | crcEncode d h gen | crcDecode d h gen =>
    cases hd
    obtain ⟨hfree, -⟩ := runOf_crc_ok rfl rfl rfl hr
    exact hfree
  | _ => cases hd

/-- A slot that a completed command does not create a buffer in or use is unchanged. -/
theorem runOf_slot {i : Instr} {h : Handle} (hr : runOf i s = .ok t) (hd : destination i ≠ some h)
    (hs : source i ≠ some h) : t.slot h = s.slot h := by
  obtain ⟨-, -, -, -, -, hslots, -⟩ := runOf_frame hr
  exact hslots h hd hs

/-- The slot a completed command uses stays allocated, unless the command is `free`. -/
theorem runOf_source_stays {i : Instr} {h : Handle} (hr : runOf i s = .ok t) (hs : source i = some h)
    (hfree : i ≠ .free h) : ∃ b, t.slot h = some b := by
  cases i with
  | fromBytes d data | newEmpty d capBits => cases hs
  | getBit h index =>
    cases hs
    obtain ⟨b, -, hb, -, ⟨-, rfl⟩ | ⟨-, rfl⟩⟩ := runGetBit_ok.1 hr
    · exact ⟨b, hb⟩
    · exact ⟨b, hb⟩
  | setBit h index v =>
    cases hs
    obtain ⟨b, -, -, -, rfl⟩ := runSetBit_ok.1 hr
    exact ⟨_, State.slot_setSlot_self _ _ _⟩
  | pushBit h v =>
    cases hs
    obtain ⟨b, sb, -, -, -, rfl⟩ := runPushBit_ok.1 hr
    exact ⟨_, State.slot_setSlot_self _ _ _⟩
  | popBit h =>
    cases hs
    obtain ⟨b, -, -, -, rfl⟩ := runPopBit_ok.1 hr
    exact ⟨_, State.slot_setSlot_self _ _ _⟩
  | free h =>
    cases hs
    exact absurd rfl hfree
  | getLen h =>
    cases hs
    obtain ⟨b, -, hb, rfl⟩ := runGetLen_ok.1 hr
    exact ⟨b, hb⟩
  | getCap h =>
    cases hs
    obtain ⟨b, -, hb, rfl⟩ := runGetCap_ok.1 hr
    exact ⟨b, hb⟩
  | getResidue h =>
    cases hs
    obtain ⟨b, -, hb, rfl⟩ := runGetResidue_ok.1 hr
    exact ⟨b, hb⟩
  | crcEncode d h gen | crcDecode d h gen =>
    cases hs
    obtain ⟨b, hb⟩ := runOf_source hr rfl
    obtain ⟨-, hne, out, v, rfl⟩ := runOf_crc_ok rfl rfl rfl hr
    exact ⟨b, (State.slot_setSlot_ne s d h _ hne.symm).trans hb⟩
  | injectBurst h burstBits fill =>
    cases hs
    obtain ⟨b, -, -, ⟨-, rfl⟩ | ⟨-, rfl⟩⟩ := runInjectBurst_ok.1 hr
    · exact ⟨_, State.slot_setSlot_self _ _ _⟩
    · exact ⟨_, State.slot_setSlot_self _ _ _⟩

theorem runOf_allocates {i : Instr} {h : Handle} {b : Buffer} (hr : runOf i s = .ok t) (hs : s.slot h = none)
    (ht : t.slot h = some b) : destination i = some h := by
  by_contra hd
  have hsrc : source i ≠ some h := fun hsrc => by
    obtain ⟨b', hb'⟩ := runOf_source hr hsrc
    cases hs.symm.trans hb'
  cases ht.symm.trans ((runOf_slot hr hd hsrc).trans hs)

theorem runOf_frees {i : Instr} {h : Handle} {b : Buffer} (hr : runOf i s = .ok t) (hs : s.slot h = some b)
    (ht : t.slot h = none) : i = .free h := by
  by_contra hfree
  have hd : destination i ≠ some h := fun hd => by cases hs.symm.trans (runOf_destination hr hd)
  by_cases hsrc : source i = some h
  · obtain ⟨b', hb'⟩ := runOf_source_stays hr hsrc hfree
    cases ht.symm.trans hb'
  · cases ht.symm.trans ((runOf_slot hr hd hsrc).trans hs)

/-- Settles O48: a fault changes no slot, and a completed command changes those of its operands alone. -/
theorem slotsAreAllocatedAndFreedOnlyByTheirCommands : Obligations.SlotsAreAllocatedAndFreedOnlyByTheirCommands := by
  intro i s t h _ he
  rcases exec_next.1 he with hr | ⟨c, -, rfl⟩
  · exact ⟨fun hs ⟨b, hb⟩ => runOf_allocates hr hs hb, fun ⟨b, hb⟩ ht => runOf_frees hr hb ht⟩
  · exact ⟨fun hs ⟨b, hb⟩ => (by cases hs.symm.trans hb), fun ⟨b, hb⟩ ht => (by cases hb.symm.trans ht)⟩

/-! ## Storage bytes and the fields of a buffer that stays (R23 to R26, R55) -/

theorem storesTo_of_destination {i : Instr} {d : Handle} (hd : destination i = some d) (s : State) (k : Nat) :
    storesTo i s d k := by
  cases i with
  | fromBytes | newEmpty | crcEncode | crcDecode =>
    cases hd
    rfl
  | _ => cases hd

/-- A buffer that stays reads as before in every byte that the command does not store to. -/
theorem runOf_read {i : Instr} {h : Handle} {b b' : Buffer} {k : Nat} (hi : s.Inv) (hr : runOf i s = .ok t)
    (hb : s.slot h = some b) (hb' : t.slot h = some b') (hk : ¬ storesTo i s h k) :
    b'.store.read k = b.store.read k := by
  have hwf := (hi.buffer_ok hb).store_wf
  rcases runOf_buffer hr hb hb' with rfl | ⟨index, v, rfl, -, rfl⟩ | ⟨v, sb, rfl, -, rfl⟩ | ⟨rfl, -, rfl⟩ |
    ⟨n, fill, rfl, rfl⟩
  · rfl
  · exact Memory.read_bitWrite _ _ _ _ (fun e => hk ⟨rfl, e⟩) hwf
  · exact Memory.read_bitWrite _ _ _ _ (fun e => hk ⟨rfl, b, hb, e⟩) hwf
  · rfl
  · have hout : ¬ (burstOffset s b n.toNat ≤ k ∧
        k < min (burstOffset s b n.toNat + ceilDiv8 n.toNat) (ceilDiv8 b.bl)) := fun ⟨h1, h2⟩ =>
      hk ⟨rfl, b, hb, h1, h2⟩
    simp only [ceilDiv8] at hout
    simp only [read_burstWrites hwf, ceilDiv8]
    rw [if_neg (by omega), if_neg (by omega)]

/-- Settles O46: a slot that is allocated before and after, one that is free before and after, one that is
created, one that is freed; and a fault. -/
theorem everyOtherStorageByteIsUnchanged : Obligations.EveryOtherStorageByteIsUnchanged := by
  intro i s t hi _ he h k hk
  rcases exec_next.1 he with hr | ⟨c, -, rfl⟩
  · unfold State.byteAt
    cases hs : s.slot h with
    | none =>
      cases ht : t.slot h with
      | none => rfl
      | some b' => exact absurd (storesTo_of_destination (runOf_allocates hr hs ht) s k) hk
    | some b =>
      cases ht : t.slot h with
      | none =>
        obtain rfl := runOf_frees hr hs ht
        exact absurd rfl hk
      | some b' => exact congrArg some (runOf_read hi hr hs ht hk)
  · rfl

/-- Settles O47: the frame of a completed command, and the fault entry. -/
theorem everyOtherRegisterAndSlotIsUnchanged : Obligations.EveryOtherRegisterAndSlotIsUnchanged := by
  intro i s t hs he
  rcases exec_halted hs he with ⟨-, hr⟩ | ⟨ht, c, -, rfl⟩
  · obtain ⟨hcfg, hcmd, hdata, hfault, -, hslots, hres, hstatus, hrnz, hdraws⟩ := runOf_frame hr
    refine ⟨hcfg, hcmd, hdata, hslots, hres, fun _ => ⟨hfault, hstatus, fun j hj => ?_⟩, hdraws⟩
    rcases hrnz with h | ⟨v, h⟩
    · rw [h]
    · rw [h, getLsbD_statusSetRnz, if_neg hj]
  · exact ⟨rfl, rfl, rfl, fun _ _ _ => rfl, fun _ => rfl, fun hf => absurd (ht.symm.trans hf) (by decide), .inl rfl⟩

/-- Settles O49: the five things a completed command can make of a buffer that stays. -/
theorem bufferFieldsChangeOnlyByTheirCommands : Obligations.BufferFieldsChangeOnlyByTheirCommands := by
  intro i s t h b b' hi _ he hb hb'
  rcases exec_next.1 he with hr | ⟨c, -, rfl⟩
  · rcases runOf_buffer hr hb hb' with rfl | ⟨index, v, rfl, -, rfl⟩ | ⟨v, sb, rfl, hg, rfl⟩ | ⟨rfl, hne, rfl⟩ |
      ⟨n, fill, rfl, rfl⟩
    · exact ⟨rfl, .inl rfl, .inl rfl, fun _ _ _ hbit => absurd rfl hbit⟩
    · exact ⟨rfl, .inl rfl, .inl rfl, fun _ _ _ _ => .inl ⟨index, v, rfl⟩⟩
    · obtain ⟨-, -, k, hk, -⟩ := growBytes_ok hi.cfg_wf hg
      refine ⟨rfl, .inr (.inl ⟨⟨v, rfl⟩, rfl⟩), .inr ⟨⟨v, rfl⟩, k, hk⟩, fun j hj _ hbit => absurd ?_ hbit⟩
      rw [Buffer.bits_append _ _ _ (hi.buffer_ok hb).store_wf, List.getElem?_append_left (by simpa using hj)]
    · refine ⟨rfl, .inr (.inr ⟨rfl, Nat.sub_add_cancel (by omega)⟩), .inl rfl, fun j _ hj hbit => absurd ?_ hbit⟩
      rw [Buffer.bits_shorten _ hne, List.getElem?_append_left (by simpa using hj)]
    · exact ⟨rfl, .inl rfl, .inl rfl, fun _ _ _ _ => .inr ⟨n, fill, rfl⟩⟩
  · cases hb.symm.trans hb'
    exact ⟨rfl, .inl rfl, .inl rfl, fun _ _ _ hbit => absurd rfl hbit⟩

/-! ## The two draws (R57, R217) -/

/-- The state at another count of draws taken. -/
def State.withDraws (n : Nat) (s : State) : State := { s with draws := n }

/-- A command other than the two that draw does the same at any count of draws. -/
theorem runOf_withDraws {i : Instr} (n : Nat) (hinject : ∀ h b fill, i ≠ .injectBurst h b fill)
    (hget : ∀ h index b, i = .getBit h index → s.slot h = some b → index.toNat < b.bl ∨ b.cap ≤ index.toNat) :
    runOf i (s.withDraws n) = (runOf i s).map (State.withDraws n) := by
  cases i with
  | fromBytes d data => exact bind_eq_map_bind fun _ => bind_eq_map_bind fun _ => rfl
  | newEmpty d capBits => exact bind_eq_map_bind fun _ => bind_eq_map_bind fun _ => rfl
  | getBit h index =>
    change (checkS s h >>= _) = (checkS s h >>= _).map _
    cases hS : checkS s h with
    | error c => rfl
    | ok b =>
      obtain ⟨-, hb⟩ := checkS_ok.1 hS
      rw [bind_of_ok rfl, bind_of_ok rfl]
      rcases hget h index b rfl hb with hlt | hcap
      · rw [if_pos hlt, if_pos hlt]
        split <;> rfl
      · rw [if_pos hcap, if_pos hcap]
        rfl
  | setBit h index v =>
    refine bind_eq_map_bind fun _ => ?_
    split <;> rfl
  | pushBit h v => exact bind_eq_map_bind fun _ => bind_eq_map_bind fun _ => rfl
  | popBit h =>
    refine bind_eq_map_bind fun _ => ?_
    split <;> rfl
  | crcEncode d h gen =>
    exact bind_eq_map_bind fun _ => bind_eq_map_bind fun _ => bind_eq_map_bind fun _ => bind_eq_map_bind fun _ =>
      bind_eq_map_bind fun _ => rfl
  | crcDecode d h gen =>
    exact bind_eq_map_bind fun _ => bind_eq_map_bind fun _ => bind_eq_map_bind fun _ => bind_eq_map_bind fun _ => rfl
  | free h | getLen h | getCap h | getResidue h => exact bind_eq_map_bind fun _ => rfl
  | injectBurst h burstBits fill => exact absurd rfl (hinject h burstBits fill)

/-- Settles O52. -/
theorem theTwoDrawsAreTheOnlyFreeValues : Obligations.TheTwoDrawsAreTheOnlyFreeValues := by
  intro i s n hinject hget
  change exec i (s.withDraws n) = mapNext (State.withDraws n) (exec i s)
  rw [exec_eq_finish, exec_eq_finish, runOf_withDraws n hinject hget]
  cases runOf i s with
  | ok t => rfl
  | error c => rfl

end Sys2Proof.Machine

/-! PROOFS. What the host can observe (10_state.md R28, R39): states that look the same to it take steps to states
that do, whatever their storage bits at or above BL. -/

namespace Sys2Proof.Machine

variable {s s' : State} {o : BitOrder} {a b : Buffer}

/-! ## Pseudocode that ends the same way -/

/-- Both ways to end: with results that are related by `R`, or with one fault. -/
inductive EndAlike {α β : Type} (R : α → β → Prop) : Except Cause α → Except Cause β → Prop
  | ok {x : α} {y : β} : R x y → EndAlike R (.ok x) (.ok y)
  | error (c : Cause) : EndAlike R (.error c) (.error c)

namespace EndAlike

variable {α β α' β' : Type} {R : α → β → Prop} {Q : α' → β' → Prop}

theorem refl (x : Except Cause α) : EndAlike Eq x x := by
  cases x with
  | ok a => exact .ok rfl
  | error c => exact .error c

theorem bind {x : Except Cause α} {y : Except Cause β} {f : α → Except Cause α'} {g : β → Except Cause β'}
    (h : EndAlike R x y) (hfg : ∀ u v, R u v → EndAlike Q (f u) (g v)) : EndAlike Q (x >>= f) (y >>= g) := by
  cases h with
  | ok hR => exact hfg _ _ hR
  | error c => exact .error c

/-- Two sides that begin with the same part. -/
theorem bind_same {x : Except Cause α} {f : α → Except Cause α'} {g : α → Except Cause β'}
    (hfg : ∀ u, EndAlike Q (f u) (g u)) : EndAlike Q (x >>= f) (x >>= g) :=
  (refl x).bind fun u _ huv => huv ▸ hfg u

theorem ite {p q : Prop} [Decidable p] [Decidable q] (hpq : p ↔ q) {x x' : Except Cause α} {y y' : Except Cause β}
    (hx : p → EndAlike R x y) (hy : ¬ p → EndAlike R x' y') :
    EndAlike R (if p then x else x') (if q then y else y') := by
  by_cases hp : p
  · rw [if_pos hp, if_pos (hpq.1 hp)]
    exact hx hp
  · rw [if_neg hp, if_neg (mt hpq.2 hp)]
    exact hy hp

end EndAlike

/-! ## Buffers that look the same (R28) -/

/-- Two buffers look the same, and their storage is in canonical form. -/
structure Buffer.Alike (o : BitOrder) (a b : Buffer) : Prop where
  left : a.store.wf = true
  right : b.store.wf = true
  view : a.SameView o b

namespace Buffer.Alike

theorem bl (h : a.Alike o b) : a.bl = b.bl := by
  have hlen := congrArg List.length h.view.bits
  simpa using hlen

theorem sb (h : a.Alike o b) : a.sb = b.sb := by
  have hcap := h.view.cap
  simp only [Buffer.cap] at hcap
  omega

theorem bitRead (h : a.Alike o b) {i : Nat} (hi : i < a.bl) : a.store.bitRead o i = b.store.bitRead o i := by
  have hbit := congrArg (·[i]?) h.view.bits
  simp only [Buffer.getElem?_bits hi, Buffer.getElem?_bits (h.bl ▸ hi)] at hbit
  exact Option.some.inj hbit

theorem bitWrite (h : a.Alike o b) (i : Nat) (v : Bool) :
    ({ a with store := a.store.bitWrite o i v } : Buffer).Alike o { b with store := b.store.bitWrite o i v } where
  left := Memory.wf_bitWrite _ _ _ h.left
  right := Memory.wf_bitWrite _ _ _ h.right
  view := ⟨by rw [Buffer.bits_bitWrite _ _ _ h.left, Buffer.bits_bitWrite _ _ _ h.right, h.view.bits],
    h.view.cap, h.view.res⟩

theorem append (h : a.Alike o b) (sb : Nat) (v : Bool) :
    ({ a with sb := sb, store := a.store.bitWrite o a.bl v, bl := a.bl + 1 } : Buffer).Alike o
      { b with sb := sb, store := b.store.bitWrite o b.bl v, bl := b.bl + 1 } where
  left := Memory.wf_bitWrite _ _ _ h.left
  right := Memory.wf_bitWrite _ _ _ h.right
  view := ⟨by rw [Buffer.bits_append _ _ _ h.left, Buffer.bits_append _ _ _ h.right, h.view.bits], rfl, h.view.res⟩

theorem shorten (h : a.Alike o b) (hne : a.bl ≠ 0) :
    ({ a with bl := a.bl - 1 } : Buffer).Alike o { b with bl := b.bl - 1 } where
  left := h.left
  right := h.right
  view := by
    have hbits := (Buffer.bits_shorten o hne).symm.trans (h.view.bits.trans (Buffer.bits_shorten o (h.bl ▸ hne)))
    exact ⟨(List.append_inj' hbits rfl).1, h.view.cap, h.view.res⟩

theorem copyOf (h : a.Alike o b) (r : Word) : (Machine.copyOf a r).Alike o (Machine.copyOf b r) where
  left := Memory.wf_firstBytes _ h.left
  right := Memory.wf_firstBytes _ h.right
  view := ⟨(bits_firstBytes o a _ _).trans (h.view.bits.trans (bits_firstBytes o b _ _).symm),
    congrArg (fun n => 8 * crcOutputSize n) h.bl, rfl⟩

/-- A burst covers the same bits of both buffers, and leaves the same others. -/
theorem burst (h : a.Alike .msbFirst b) (off n : Nat) (fill : Fill) :
    ({ a with store := burstWrites a.store (ceilDiv8 a.bl) off (burstSize n) fill } : Buffer).Alike .msbFirst
      { b with store := burstWrites b.store (ceilDiv8 b.bl) off (burstSize n) fill } where
  left := wf_burstWrites _ _ _ _ h.left
  right := wf_burstWrites _ _ _ _ h.right
  view := by
    refine ⟨?_, h.view.cap, h.view.res⟩
    unfold Buffer.bits
    rw [← h.bl]
    refine List.map_congr_left fun i hi => ?_
    rw [bitRead_burstWrites h.left, bitRead_burstWrites h.right, h.bitRead (List.mem_range.1 hi)]

theorem crcResidue {c : Config} (h : a.Alike c.bitOrder b) (g : Generator) : crcResidue c g a = crcResidue c g b :=
  crcResidue_congr h.view.bits

end Buffer.Alike

theorem pushBuffer_alike {c : Config} (h : a.Alike c.bitOrder b) (v : Bool) :
    EndAlike (Buffer.Alike c.bitOrder) (pushBuffer c a v) (pushBuffer c b v) := by
  unfold pushBuffer grow
  rw [h.bl, h.sb]
  simp only [bind_assoc, pure_bind]
  refine EndAlike.bind_same fun sb => .ok ?_
  rw [← h.bl]
  simpa only [h.bl] using h.append sb v

theorem pushBits_alike {c : Config} (vs : List Bool) (h : a.Alike c.bitOrder b) :
    EndAlike (Buffer.Alike c.bitOrder) (pushBits c a vs) (pushBits c b vs) := by
  induction vs generalizing a b with
  | nil => exact .ok h
  | cons v vs ih => exact (pushBuffer_alike h v).bind fun _ _ h1 => ih h1

theorem build_alike {c : Config} (h : a.Alike c.bitOrder b) (r : Word) :
    EndAlike (Buffer.Alike c.bitOrder) (build c a r) (build c b r) := by
  unfold build
  rw [← h.bl]
  refine EndAlike.bind_same fun _ => .ok ?_
  have hcopy := h.copyOf r
  unfold copyOf at hcopy
  rwa [← h.bl] at hcopy

/-! ## Updates of states that look the same -/

theorem Buffer.SameView.refl (o : BitOrder) (b : Buffer) : b.SameView o b := ⟨rfl, rfl, rfl⟩

namespace State.SameView

variable (hv : s.SameView s')
include hv

theorem setSlot (h : Handle) {x y : Option Buffer} (hxy : SlotSameView s.cfg.bitOrder x y) :
    (s.setSlot h x).SameView (s'.setSlot h y) where
  cfg := hv.cfg
  slots k := by
    rw [State.slot_setSlot, State.slot_setSlot]
    split
    · exact hxy
    · exact hv.slots k
  result := hv.result
  status := hv.status
  faultCmd := hv.faultCmd
  cmdPort := hv.cmdPort
  dataPort := hv.dataPort
  draws := hv.draws

theorem setSlot_some (h : Handle) (hab : a.SameView s.cfg.bitOrder b) :
    (s.setSlot h (some a)).SameView (s'.setSlot h (some b)) := hv.setSlot h (x := some a) (y := some b) hab

theorem setResult (v : Word) : (s.setResult v).SameView (s'.setResult v) :=
  ⟨hv.cfg, hv.slots, rfl, hv.status, hv.faultCmd, hv.cmdPort, hv.dataPort, hv.draws⟩

theorem setRnz (v : Bool) : (s.setRnz v).SameView (s'.setRnz v) :=
  ⟨hv.cfg, hv.slots, hv.result, congrArg (statusSetRnz · v) hv.status, hv.faultCmd, hv.cmdPort, hv.dataPort, hv.draws⟩

theorem countDraw : s.countDraw.SameView s'.countDraw :=
  ⟨hv.cfg, hv.slots, hv.result, hv.status, hv.faultCmd, hv.cmdPort, hv.dataPort, congrArg (· + 1) hv.draws⟩

theorem takeFault (c : Cause) (w : Word) : (Machine.takeFault c w s).SameView (Machine.takeFault c w s') :=
  ⟨hv.cfg, hv.slots, hv.result, congrArg (statusEnterFault · c) hv.status, rfl, hv.cmdPort, hv.dataPort, hv.draws⟩

theorem takeWord : s.takeWord.SameView s'.takeWord :=
  ⟨hv.cfg, hv.slots, hv.result, hv.status, hv.faultCmd, congrArg List.tail hv.cmdPort, hv.dataPort, hv.draws⟩

theorem halted : s.halted = s'.halted := congrArg statusFault hv.status

theorem retire (ws : List Word) (bs : List Byte) : (s.retire ws bs).SameView (s'.retire ws bs) := by
  unfold State.retire
  rw [← hv.halted]
  split
  · exact hv.takeWord
  · exact ⟨hv.cfg, hv.slots, hv.result, hv.status, hv.faultCmd, rfl, rfl, hv.draws⟩

theorem hostRead (r : HostReg) : Machine.hostRead r s = Machine.hostRead r s' := by
  cases r with
  | result => exact hv.result
  | status => exact congrArg (· &&& 0x3F#32) hv.status
  | faultCmd => exact hv.faultCmd

theorem checkD (d : Handle) : checkD s d = Machine.checkD s' d := by
  have hslot := hv.slots d
  unfold Machine.checkD
  rw [← hv.cfg]
  cases hs : s.slot d <;> cases hs' : s'.slot d <;> simp_all [SlotSameView]

theorem checkS (hi : s.Inv) (hi' : s'.Inv) (h : Handle) :
    EndAlike (Buffer.Alike s.cfg.bitOrder) (Machine.checkS s h) (Machine.checkS s' h) := by
  have hslot := hv.slots h
  unfold Machine.checkS
  rw [← hv.cfg]
  refine .ite Iff.rfl (fun _ => .error _) fun _ => ?_
  cases hs : s.slot h with
  | none =>
    cases hs' : s'.slot h with
    | none => exact .error _
    | some b =>
      rw [hs, hs'] at hslot
      exact hslot.elim
  | some a =>
    cases hs' : s'.slot h with
    | none =>
      rw [hs, hs'] at hslot
      exact hslot.elim
    | some b =>
      rw [hs, hs'] at hslot
      exact .ok ⟨(hi.buffer_ok hs).store_wf, (hi'.buffer_ok hs').store_wf, hslot⟩

end State.SameView

/-! ## Commands -/

theorem runFromBytes_sameView (hv : s.SameView s') (d : Handle) (data : List Byte) :
    EndAlike State.SameView (runFromBytes d data s) (runFromBytes d data s') := by
  unfold runFromBytes
  rw [← hv.checkD d, ← hv.cfg]
  exact .bind_same fun _ => .bind_same fun _ => .ok (hv.setSlot_some d (.refl _ _))

theorem runNewEmpty_sameView (hv : s.SameView s') (d : Handle) (capBits : Word) :
    EndAlike State.SameView (runNewEmpty d capBits s) (runNewEmpty d capBits s') := by
  unfold runNewEmpty
  rw [← hv.checkD d, ← hv.cfg]
  exact .bind_same fun _ => .bind_same fun _ => .ok (hv.setSlot_some d (.refl _ _))

section Commands

variable (hv : s.SameView s') (hi : s.Inv) (hi' : s'.Inv)
include hv hi hi'

theorem runCrcEncode_sameView (d h : Handle) (gen : Word) :
    EndAlike State.SameView (runCrcEncode d h gen s) (runCrcEncode d h gen s') := by
  unfold runCrcEncode
  rw [← hv.checkD d, ← hv.cfg]
  refine (hv.checkS hi hi' h).bind fun a b hab => .bind_same fun _ => .bind_same fun g => ?_
  rw [hab.crcResidue g]
  exact (build_alike hab _).bind fun _ _ hcopy => (pushBits_alike _ hcopy).bind fun _ _ hout =>
    .ok ((hv.setSlot_some d hout.view).setRnz _)

theorem runCrcDecode_sameView (d h : Handle) (gen : Word) :
    EndAlike State.SameView (runCrcDecode d h gen s) (runCrcDecode d h gen s') := by
  unfold runCrcDecode
  rw [← hv.checkD d, ← hv.cfg]
  refine (hv.checkS hi hi' h).bind fun a b hab => .bind_same fun _ => .bind_same fun g => ?_
  rw [hab.crcResidue g]
  exact (build_alike hab _).bind fun _ _ hcopy => .ok ((hv.setSlot_some d hcopy.view).setRnz _)

theorem runGetBit_sameView (h : Handle) (index : Word) :
    EndAlike State.SameView (runGetBit h index s) (runGetBit h index s') := by
  unfold runGetBit
  rw [← hv.cfg, ← hv.draws]
  refine (hv.checkS hi hi' h).bind fun a b hab => .ite (by rw [hab.view.cap]) (fun _ => .error _) fun _ =>
    .ite (by rw [hab.bl]) (fun hlt => ?_) fun _ => .ok (hv.setResult _).countDraw
  rw [hab.bitRead hlt]
  exact .ok (hv.setResult _)

theorem runSetBit_sameView (h : Handle) (index : Word) (v : Bool) :
    EndAlike State.SameView (runSetBit h index v s) (runSetBit h index v s') := by
  unfold runSetBit
  rw [← hv.cfg]
  exact (hv.checkS hi hi' h).bind fun a b hab => .ite (by rw [hab.view.cap]) (fun _ => .error _) fun _ =>
    .ok (hv.setSlot_some h (hab.bitWrite _ v).view)

theorem runPushBit_sameView (h : Handle) (v : Bool) :
    EndAlike State.SameView (runPushBit h v s) (runPushBit h v s') := by
  unfold runPushBit
  rw [← hv.cfg]
  exact (hv.checkS hi hi' h).bind fun a b hab => (pushBuffer_alike hab v).bind fun _ _ hout =>
    .ok (hv.setSlot_some h hout.view)

theorem runPopBit_sameView (h : Handle) : EndAlike State.SameView (runPopBit h s) (runPopBit h s') := by
  unfold runPopBit
  rw [← hv.cfg]
  refine (hv.checkS hi hi' h).bind fun a b hab => .ite (by rw [hab.bl]) (fun _ => .error _) fun hne => ?_
  have hbit := hab.bitRead (i := a.bl - 1) (by omega)
  simp only [← hab.bl, hbit]
  have hshort := (hab.shorten hne).view
  rw [← hab.bl] at hshort
  exact .ok ((hv.setSlot_some h hshort).setResult _)

theorem runInjectBurst_sameView (h : Handle) (burstBits : Word) (fill : Fill) :
    EndAlike State.SameView (runInjectBurst h burstBits fill s) (runInjectBurst h burstBits fill s') := by
  have horder := Config.bitOrder_eq hi.cfg_wf
  refine (hv.checkS hi hi' h).bind fun a b hab => ?_
  have hlast : lastOffset a burstBits.toNat = lastOffset b burstBits.toNat := by rw [lastOffset, hab.bl, lastOffset]
  have hoff : burstOffset s a burstBits.toNat = burstOffset s' b burstBits.toNat := by
    rw [burstOffset, hlast, hv.draws, burstOffset]
  have hburst : (injectAt h a burstBits.toNat (burstOffset s a burstBits.toNat) fill s).SameView
      (injectAt h b burstBits.toNat (burstOffset s' b burstBits.toNat) fill s') := by
    rw [← hoff]
    refine hv.setSlot_some h ?_
    rw [horder] at hab ⊢
    exact (hab.burst _ _ fill).view
  exact .ite (by rw [hlast]) (fun _ => .ok hburst.countDraw) fun _ => .ok hburst

/-- No command tells two states apart that look the same to the host. -/
theorem runOf_sameView (i : Instr) : EndAlike State.SameView (runOf i s) (runOf i s') := by
  cases i with
  | fromBytes d data => exact runFromBytes_sameView hv d data
  | newEmpty d capBits => exact runNewEmpty_sameView hv d capBits
  | getBit h index => exact runGetBit_sameView hv hi hi' h index
  | setBit h index v => exact runSetBit_sameView hv hi hi' h index v
  | pushBit h v => exact runPushBit_sameView hv hi hi' h v
  | popBit h => exact runPopBit_sameView hv hi hi' h
  | free h => exact (hv.checkS hi hi' h).bind fun _ _ _ => .ok (hv.setSlot h trivial)
  | getLen h =>
    refine (hv.checkS hi hi' h).bind fun a b hab => ?_
    rw [hab.bl]
    exact .ok (hv.setResult _)
  | getCap h =>
    refine (hv.checkS hi hi' h).bind fun a b hab => ?_
    rw [hab.view.cap]
    exact .ok (hv.setResult _)
  | getResidue h =>
    refine (hv.checkS hi hi' h).bind fun a b hab => ?_
    rw [hab.view.res]
    exact .ok (hv.setResult _)
  | crcEncode d h gen => exact runCrcEncode_sameView hv hi hi' d h gen
  | crcDecode d h gen => exact runCrcDecode_sameView hv hi hi' d h gen
  | injectBurst h burstBits fill => exact runInjectBurst_sameView hv hi hi' h burstBits fill

theorem exec_sameView (i : Instr) : ∃ t t', exec i s = .next t ∧ exec i s' = .next t' ∧ t.SameView t' := by
  have hend := runOf_sameView hv hi hi' i
  rw [exec_eq_finish, exec_eq_finish]
  generalize runOf i s = x at hend
  generalize runOf i s' = y at hend
  cases hend with
  | ok h => exact ⟨_, _, rfl, rfl, h⟩
  | error c => exact ⟨_, _, rfl, rfl, hv.takeFault c _⟩

/-- Both states take the same of the four steps. -/
theorem step_sameView : ∃ t t', step s = .next t ∧ step s' = .next t' ∧ t.SameView t' := by
  rcases step_cases s with ⟨hs, h⟩ | ⟨hs, hd, h⟩ | ⟨w, why, hs, hd, h⟩ | ⟨i, words, bytes, t, hs, hd, he, h⟩
  all_goals rw [hv.halted] at hs
  · exact ⟨s, s', h, step_halted hs, hv⟩
  all_goals rw [hv.cmdPort, hv.dataPort] at hd
  · exact ⟨s, s', h, step_waiting hs hd, hv⟩
  · exact ⟨_, _, h, step_illegal hs hd, (hv.takeFault _ w).takeWord⟩
  · obtain ⟨u, u', hu, hu', huv⟩ := exec_sameView hv hi hi' i
    cases he.symm.trans hu
    exact ⟨_, _, h, step_command hs hd hu', huv.retire words bytes⟩

end Commands

/-- Settles O53: a relational invariant of pairs of steps. -/
theorem garbageBitsAreNeverObservable : Obligations.GarbageBitsAreNeverObservable := by
  intro s s' t t' hi hi' hv ht ht'
  obtain ⟨u, u', hu, hu', huv⟩ := step_sameView hv hi hi'
  cases ht.symm.trans hu
  cases ht'.symm.trans hu'
  exact ⟨huv, huv.hostRead⟩

end Sys2Proof.Machine

/-! PROOFS. The pseudo-instruction `from_text` (30_encoding.md R82): its expansion, and the run of it. -/

namespace Sys2Proof.Machine

variable {s : State} {d : Handle}

/-- The character of a bit in a bit text. -/
def bitChar (v : Bool) : Char := if v then '1' else '0'

theorem textPushes_bitChar (d : Handle) (bits : List Bool) :
    textPushes d (bits.map bitChar) = some (bits.map (Instr.pushBit d)) := by
  induction bits with
  | nil => rfl
  | cons v vs ih => cases v <;> simp [textPushes, bitChar, ih]

/-- A run goes on from a command that completes on an idle block, which is then idle again. -/
theorem hostRun_completed {t : State} {i : Instr} (hs : s.halted = false) (hw : s.cmdPort = [])
    (hb : s.dataPort = []) (hi : i.wellFormed = true) (hr : runOf i s = .ok t) (rest : List HostInput) :
    hostRun (.command i :: rest) s = hostRun rest t := by
  obtain ⟨-, -, -, -, hhalt, -⟩ := runOf_frame hr
  rw [hostRun_command hs hw hb hi (exec_of_ok hr), afterCommand, if_neg (by simp [hhalt, hs])]

/-- The pushes on a buffer, submitted one after another, end in the buffer with all of them. -/
theorem hostRun_pushes {bits : List Bool} {b out : Buffer} (hs : s.halted = false) (hw : s.cmdPort = [])
    (hb : s.dataPort = []) (hd : d.toNat < s.cfg.nslots) (hp : pushBits s.cfg b bits = .ok out) :
    hostRun (bits.map fun v => .command (.pushBit d v)) (s.setSlot d (some b)) = .next (s.setSlot d (some out)) := by
  induction bits generalizing b with
  | nil =>
    cases hp
    rfl
  | cons v vs ih =>
    obtain ⟨b1, hpush, hrest⟩ := bind_eq_ok.1 hp
    obtain ⟨sb, hgrow, rfl⟩ := pushBuffer_ok.1 hpush
    have hr := (runPushBit_ok (s := s.setSlot d (some b)) (v := v)).2
      ⟨b, sb, hd, State.slot_setSlot_self s d _, hgrow, rfl⟩
    rw [State.setSlot_setSlot] at hr
    exact (hostRun_completed (i := .pushBit d v) (s := s.setSlot d (some b)) hs hw hb rfl hr _).trans (ih hrest)

/-- The buffer that `new_empty` makes for `from_text`: one byte. -/
def emptyByte : Buffer := { sb := 1, store := [], bl := 0, res := 0 }

/-- Settles O54: `new_empty` of 8 bits completes, and the pushes do where some doubling of its byte has room. -/
theorem fromTextBuildsTheBits : Obligations.FromTextBuildsTheBits := by
  intro s d bits k hi hs hw hb hd hfree hfit hmax
  obtain ⟨out, hp⟩ : ∃ out, pushBits s.cfg emptyByte bits = .ok out :=
    pushBits_ends hi.cfg_wf k (Nat.le_refl 1) (by simp only [emptyByte]; omega) (by simpa [emptyByte] using hmax)
  obtain ⟨hbits, hbl, hres, -⟩ := pushBits_ok hi.cfg_wf rfl hp
  have hone : newEmptySize (8 : Word).toNat ≤ s.cfg.maxSlotBytes := Nat.one_le_two_pow.trans hmax
  have hnew : runOf (.newEmpty d 8) s = .ok (s.setSlot d (some emptyByte)) := runNewEmpty_ok.2 ⟨hd, hfree, hone, rfl⟩
  refine ⟨.newEmpty d 8 :: bits.map (Instr.pushBit d), out, ?_, ?_, hbits, ?_, hres⟩
  · exact congrArg (Option.map (Instr.newEmpty d 8 :: ·)) (textPushes_bitChar d bits)
  · rw [List.map_cons, hostRun_completed hs hw hb rfl hnew, List.map_map]
    exact hostRun_pushes hs hw hb hd hp
  · rw [hbl]
    exact Nat.zero_add _

end Sys2Proof.Machine
